-- ==== Sys2Proof/Word.lean ====
section
/-! DEFINITION. The word types of the byte-codec CORE (spec/00_scope.md R6, R7): 8-bit cells and characters,
16-bit character codes, 32-bit registers and command words, 64-bit VAL and RES. -/

namespace Sys2Proof

/-- An 8-bit buffer cell or character (R14, R36, R37). -/
abbrev Byte := BitVec 8

/-- A 16-bit character code, HEXCHAR's operand (R136), and a CRC_ROM entry (R38). -/
abbrev Half := BitVec 16

/-- A 32-bit register, accumulator or command word (R6, R21, R90). -/
abbrev Word := BitVec 32

/-- The 64-bit pairs VAL and RES (R26, R27). -/
abbrev DWord := BitVec 64

end Sys2Proof
end

