-- ==== Sys2Proof/Syntax.lean ====
section
/-! DEFINITION. The commands of the byte-codec CORE as syntax: one constructor for each row of spec/opcode_table.json
(spec/30_encoding.md R93). -/

namespace Sys2Proof

/-- A command of the device. A command word has no operand field but MODE of CRC_INIT (R91, R92): every other operand is
read from a fixed register when the command runs. -/
inductive Instr where
  /-- UNPACK16: `toShort(dest, offset)`, R122. -/
  | unpack16
  /-- UNPACK32: `toInt(dest, offset)`, R123. -/
  | unpack32
  /-- UNPACK64: `toLong(dest, offset)`, R124. -/
  | unpack64
  /-- PACK16: `fillShort(dest, offset, value)`, R125. -/
  | pack16
  /-- PACK32: `fillInt(dest, offset, value)`, R126. -/
  | pack32
  /-- PACK64: `fillLong(dest, offset, value)`, R127. -/
  | pack64
  /-- APPEND16: `appendShort(dest, value)`, R128. -/
  | append16
  /-- APPEND32: `appendInt(dest, value)`, R129. -/
  | append32
  /-- APPEND64: `appendLong(dest, value)`, R130. -/
  | append64
  /-- FLIP8: `flipByte(value)`, R131. -/
  | flip8
  /-- FLIP16: `flipShort(value)`, R132. -/
  | flip16
  /-- FLIP32: `flipInt(value)`, R133. -/
  | flip32
  /-- FLIP64: `flipLong(value)`, R134. -/
  | flip64
  /-- BYTE2U: `byteToUnsigned(b)`, R135. -/
  | byte2u
  /-- HEXCHAR: `hexCharToInt(c)`, R136. -/
  | hexchar
  /-- HEXENC: `bytesToHex(bytes, offset, length)`, R172. -/
  | hexenc
  /-- HEXENCSP: `bytesToHexWithSpaces(bytes, ...)`, R173. -/
  | hexencsp
  /-- HEXDUMP: `dump(bytes, offset, length)`, R174. -/
  | hexdump
  /-- HEXDEC: `hexToBytes(hexString, offset, length)`, R177. -/
  | hexdec
  /-- BCC_INIT: `construct with initial value`, R211. -/
  | bccInit
  /-- BCC_UPDB: `update(byte)`, R212. -/
  | bccUpdb
  /-- BCC_UPD: `update(buffer, offset, length)`, R213. -/
  | bccUpd
  /-- BCC_FIN: `finalizeResult()`, R214. -/
  | bccFin
  /-- BCC_FINB: `finalizeResult(buffer, offset, length)`, R215. -/
  | bccFinb
  /-- ADD_INIT: `construct with initial value`, R232. -/
  | addInit
  /-- ADD_UPDB: `update(byte)`, R233. -/
  | addUpdb
  /-- ADD_UPD: `update(buffer, offset, length)`, R234. -/
  | addUpd
  /-- ADD_FIN: `finalizeResult()`, R235. -/
  | addFin
  /-- ADD_FINB: `finalizeResult(buffer, offset, length)`, R236. -/
  | addFinb
  /-- CRC_INIT: `construct with mode and initial value`, R255. -/
  | crcInit (mode : BitVec 2)
  /-- CRC_UPDB: `update(byte)`, R256. -/
  | crcUpdb
  /-- CRC_UPD: `update(buffer, offset, length)`, R257. -/
  | crcUpd
  /-- CRC_FIN: `finalizeResult()`, R258. -/
  | crcFin
  /-- CRC_FINB: `finalizeResult(buffer, offset, length)`, R259. -/
  | crcFinb
deriving DecidableEq, Repr

end Sys2Proof
end

