-- ==== Sys2Proof/WellFormed.lean ====
section
/-! DEFINITION. Which commands have a legal spelling (spec/30_encoding.md R93, R96). -/

namespace Sys2Proof

/-- A command that R93's word column and R96's syntax spell. CRC_INIT is written CRC_INIT.TABLE (MODE 0b01) or
CRC_INIT.SHIFT (MODE 0b10); with MODE 0b00 or 0b11 the word still decodes, and raises INVALID_ALGORITHM (R92). -/
def wellFormed (i : Instr) : Bool :=
  match i with
  | .crcInit mode => mode = 0b01#2 || mode = 0b10#2
  | .unpack16 | .unpack32 | .unpack64 | .pack16 | .pack32 | .pack64 | .append16 | .append32 | .append64
  | .flip8 | .flip16 | .flip32 | .flip64 | .byte2u | .hexchar | .hexenc | .hexencsp | .hexdump | .hexdec
  | .bccInit | .bccUpdb | .bccUpd | .bccFin | .bccFinb | .addInit | .addUpdb | .addUpd | .addFin | .addFinb
  | .crcUpdb | .crcUpd | .crcFin | .crcFinb => true

end Sys2Proof
end

