-- ==== Sys2Proof/Decode.lean ====
section
/-! DEFINITION. Decoding and encoding of the 32-bit command word (spec/30_encoding.md R90 to R95). -/

namespace Sys2Proof

/-- Why a word is no command: the three conditions of R94. -/
inductive DecodeReject where
  /-- RSV, bits 31:10, is not zero. -/
  | reservedBits
  /-- OPC, bits 7:0, is not in the opcode map of R93. -/
  | unassignedOpcode
  /-- MODE, bits 9:8, is not zero in a command other than CRC_INIT. -/
  | modeBits
deriving DecidableEq, Repr

/-- CMD[7:0], the opcode (R90). -/
def opcField (w : Word) : Byte := w.extractLsb' 0 8

/-- CMD[9:8], the CRC algorithm selector (R90). -/
def modeField (w : Word) : BitVec 2 := w.extractLsb' 8 2

/-- CMD[31:10], reserved (R90). -/
def rsvField (w : Word) : BitVec 22 := w.extractLsb' 10 22

/-- The opcode map of R93; MODE is an operand of CRC_INIT alone (R92). -/
def instrOfOpcode (opc : Byte) (mode : BitVec 2) : Option Instr :=
  match opc with
  | 0x01#8 => some .unpack16
  | 0x02#8 => some .unpack32
  | 0x03#8 => some .unpack64
  | 0x04#8 => some .pack16
  | 0x05#8 => some .pack32
  | 0x06#8 => some .pack64
  | 0x07#8 => some .append16
  | 0x08#8 => some .append32
  | 0x09#8 => some .append64
  | 0x0A#8 => some .flip8
  | 0x0B#8 => some .flip16
  | 0x0C#8 => some .flip32
  | 0x0D#8 => some .flip64
  | 0x0E#8 => some .byte2u
  | 0x0F#8 => some .hexchar
  | 0x10#8 => some .hexenc
  | 0x11#8 => some .hexencsp
  | 0x12#8 => some .hexdump
  | 0x18#8 => some .hexdec
  | 0x20#8 => some .bccInit
  | 0x21#8 => some .bccUpdb
  | 0x22#8 => some .bccUpd
  | 0x23#8 => some .bccFin
  | 0x24#8 => some .bccFinb
  | 0x30#8 => some .addInit
  | 0x31#8 => some .addUpdb
  | 0x32#8 => some .addUpd
  | 0x33#8 => some .addFin
  | 0x34#8 => some .addFinb
  | 0x40#8 => some (.crcInit mode)
  | 0x41#8 => some .crcUpdb
  | 0x42#8 => some .crcUpd
  | 0x43#8 => some .crcFin
  | 0x44#8 => some .crcFinb
  | _ => none

/-- Decoding of a whole command word (R90, R94). MODE 0b00 and 0b11 of CRC_INIT decode: R92 gives those words the error
INVALID_ALGORITHM, which the command raises. -/
def decode (w : Word) : Except DecodeReject Instr :=
  if rsvField w ≠ 0 then .error .reservedBits
  else
    match instrOfOpcode (opcField w) (modeField w) with
    | none => .error .unassignedOpcode
    | some i => if modeField w ≠ 0 ∧ opcField w ≠ 0x40#8 then .error .modeBits else .ok i

/-- OPC of a command: the OPC column of R93. -/
def opcodeOf (i : Instr) : Byte :=
  match i with
  | .unpack16 => 0x01#8
  | .unpack32 => 0x02#8
  | .unpack64 => 0x03#8
  | .pack16 => 0x04#8
  | .pack32 => 0x05#8
  | .pack64 => 0x06#8
  | .append16 => 0x07#8
  | .append32 => 0x08#8
  | .append64 => 0x09#8
  | .flip8 => 0x0A#8
  | .flip16 => 0x0B#8
  | .flip32 => 0x0C#8
  | .flip64 => 0x0D#8
  | .byte2u => 0x0E#8
  | .hexchar => 0x0F#8
  | .hexenc => 0x10#8
  | .hexencsp => 0x11#8
  | .hexdump => 0x12#8
  | .hexdec => 0x18#8
  | .bccInit => 0x20#8
  | .bccUpdb => 0x21#8
  | .bccUpd => 0x22#8
  | .bccFin => 0x23#8
  | .bccFinb => 0x24#8
  | .addInit => 0x30#8
  | .addUpdb => 0x31#8
  | .addUpd => 0x32#8
  | .addFin => 0x33#8
  | .addFinb => 0x34#8
  | .crcInit _ => 0x40#8
  | .crcUpdb => 0x41#8
  | .crcUpd => 0x42#8
  | .crcFin => 0x43#8
  | .crcFinb => 0x44#8

/-- MODE of a command: CRC_INIT's operand, zero in every other command (R90). -/
def modeOf (i : Instr) : BitVec 2 :=
  match i with
  | .crcInit mode => mode
  | .unpack16 => 0#2
  | .unpack32 => 0#2
  | .unpack64 => 0#2
  | .pack16 => 0#2
  | .pack32 => 0#2
  | .pack64 => 0#2
  | .append16 => 0#2
  | .append32 => 0#2
  | .append64 => 0#2
  | .flip8 => 0#2
  | .flip16 => 0#2
  | .flip32 => 0#2
  | .flip64 => 0#2
  | .byte2u => 0#2
  | .hexchar => 0#2
  | .hexenc => 0#2
  | .hexencsp => 0#2
  | .hexdump => 0#2
  | .hexdec => 0#2
  | .bccInit => 0#2
  | .bccUpdb => 0#2
  | .bccUpd => 0#2
  | .bccFin => 0#2
  | .bccFinb => 0#2
  | .addInit => 0#2
  | .addUpdb => 0#2
  | .addUpd => 0#2
  | .addFin => 0#2
  | .addFinb => 0#2
  | .crcUpdb => 0#2
  | .crcUpd => 0#2
  | .crcFin => 0#2
  | .crcFinb => 0#2

/-- The command word of an instruction: RSV, MODE and OPC laid out as R90 says. -/
def encode (i : Instr) : Word := 0#22 ++ modeOf i ++ opcodeOf i

/-- The instruction the decoder reads from a row of spec/opcode_table.json whose bits are `w`. A command word is one
32-bit value written to CMD, so the table's bit numbers are the word's own. -/
def decodeTableWord (nbits w : Nat) : Option Instr :=
  if w % 2 ^ nbits < 2 ^ 32 then
    match decode (BitVec.ofNat 32 (w % 2 ^ nbits)) with
    | .ok i => some i
    | .error _ => none
  else none

end Sys2Proof
end

