-- ==== Sys2Proof/Config.lean ====
section
/-! DEFINITION. What an implementation fixes (spec/00_scope.md R6: BUF_CAP, TXT_CAP, DEV_BASE) and the values the
spec leaves open (LATENCY, and what a read of a busy device returns: R323, R329). -/

namespace Sys2Proof

/-- The parameters of R6 that a run keeps for ever. The step's type is fixed by the host, so State carries this record and
no step changes it (log entries 1 and 2); a statement about every state is a statement about every value of them. -/
structure Config where
  /-- BUF_CAP: the capacity of DBUF in bytes. -/
  bufCap : Nat
  /-- TXT_CAP: the capacity of TBUF in characters. -/
  txtCap : Nat
  /-- DEV_BASE: the bus address of the device window. -/
  devBase : Nat
deriving DecidableEq, Repr

/-- The legal ranges of R6; the window is aligned to 1 MiB. -/
structure Config.Legal (c : Config) : Prop where
  bufCap_pos : 1 ≤ c.bufCap
  bufCap_le : c.bufCap ≤ 65536
  txtCap_pos : 1 ≤ c.txtCap
  txtCap_le : c.txtCap ≤ 524288
  devBase_aligned : c.devBase % 0x100000 = 0

/-- The capacities of the vectors of spec/95_test_vectors.md (R6, last column), with the window at bus address 0
(DESIGN CHOICE, log entry 1: R6 leaves DEV_BASE to the platform). -/
def Config.vectors : Config := ⟨256, 1024, 0⟩

/-- LATENCY (R6, R329), a free value drawn anew for each command: how many host actions come between a CMD write and
the command's completion. Any natural number is finite, so every command completes. Log entry 3. -/
opaque Config.latency : Nat → Nat

/-- What the host reads from anything but STATUS while BUSY = 1 (R323), a free value drawn anew for each read.
Log entry 4. -/
opaque Config.busyRead : Nat → Word

end Sys2Proof
end

