-- ==== Sys2Proof/Machine/HostOp.lean ====
section
/-! DEFINITION. The register names of the device window (spec/10_state.md R21) and the actions of the host, the other agent
of the machine (R20; spec/30_encoding.md R96). -/

namespace Sys2Proof.Machine

/-- The fifteen registers of R21, in the order of their offsets. -/
inductive Reg where
  | cmd
  | status
  | off
  | len
  | valLo
  | valHi
  | resLo
  | resHi
  | dlen
  | tlen
  | bccAcc
  | addAcc
  | crcAcc
  | crcMode
  | errInfo
deriving DecidableEq, Repr

/-- One action of the host. The bus accesses are those of R96 (`wr`, `rd`, `wrb`, `rdb`), given by bus address and width in
bits so that the accesses R62 refuses can be written too; `label`, `bnz`/`bz` and `chk`'s stop are the host's own control flow
(R96, R97); `reset` is the device's reset input RST (R320), which the host raises in the boot steps of R322. -/
inductive HostOp where
  /-- A bus write of `data` (an 8-bit access moves its low byte). -/
  | write (addr width : Nat) (data : Word)
  /-- A bus read. -/
  | read (addr width : Nat)
  /-- `label:` -/
  | label (l : Nat)
  /-- `bnz REG.FIELD, l` (`nonzero = true`) or `bz REG.FIELD, l` (`nonzero = false`), FIELD being bits `hi:lo`: a branch on
  the last value read from REG. -/
  | branch (nonzero : Bool) (r : Reg) (hi lo l : Nat)
  /-- The stop of `chk`: the program has failed if the field of the last value read is not zero. -/
  | stopIf (r : Reg) (hi lo : Nat)
  /-- A pulse on RST. -/
  | reset
deriving DecidableEq, Repr

end Sys2Proof.Machine
end

