-- ==== Sys2Proof/Machine/State.lean ====
section
/-! DEFINITION. The state of the machine (spec/10_state.md R20 to R41), why it can stop (spec/60_exceptions.md R300), and
the state after reset (spec/70_reset_and_hazards.md R320). -/

namespace Sys2Proof.Machine

/-- A buffer's written cells as (index, byte) pairs, indices strictly rising. An index that is not listed has its
`written` bit false (R39) and holds no value. -/
abbrev Memory := List Host.Cell

/-- The canonical form of a buffer: the listed indices strictly rise. (Every listed cell differs from what an unlisted one
reads as, since an unlisted one has no value.) -/
abbrev Memory.wf (m : Memory) : Prop := (m.map Prod.fst).Pairwise (· < ·)

/-- `pending` of R39: the command word accepted and not yet completed, with how many host actions still come before it
completes (its LATENCY, R329). -/
structure Pending where
  word : Word
  left : Nat
deriving DecidableEq, Repr

/-- The host (R20): its program (R96), its own program counter (R40), every value it has read with the bus address it read
it from, the latest first, and whether `chk` has stopped it. -/
structure HostAgent where
  prog : List HostOp
  pc : Nat
  seen : List (Nat × Word)
  failed : Bool
deriving DecidableEq, Repr

/-- Everything the spec gives the machine: the registers of R21, the two buffers with their written bits (R36, R37, R39),
the pending command (R39), the host, and two fields of the model's own: the implementation's parameters and the counter of
draws. CRC_ROM (R38) is constant, so it is the definition `crcRom`. -/
structure State where
  /-- The parameters of R6; no step changes them. -/
  cfg : Config
  /-- CMD (R22): the last command word written. -/
  cmd : Word
  /-- STATUS (R23). -/
  status : Word
  /-- OFF (R24). -/
  off : Word
  /-- LEN (R25). -/
  len : Word
  /-- VAL = VAL_HI:VAL_LO (R26). -/
  val : DWord
  /-- RES = RES_HI:RES_LO (R27). -/
  res : DWord
  /-- DLEN (R28). -/
  dlen : Word
  /-- TLEN (R29). -/
  tlen : Word
  /-- BCC_ACC (R30). -/
  bccAcc : Word
  /-- ADD_ACC (R31). -/
  addAcc : Word
  /-- CRC_ACC (R32). -/
  crcAcc : Word
  /-- CRC_MODE (R33). -/
  crcMode : Word
  /-- ERRINFO (R34). -/
  errInfo : Word
  /-- DBUF (R36) with `written_D` (R39). -/
  dbuf : Memory
  /-- TBUF (R37) with `written_T` (R39). -/
  tbuf : Memory
  /-- `pending` (R39). -/
  pending : Option Pending
  /-- The host. -/
  host : HostAgent
  /-- The model's own counter: how many open values have been drawn (R323, R329). -/
  draws : Nat
deriving DecidableEq, Repr

/-- Where the machine stops because the spec gives no behaviour (R300). Neither is a state of the device. -/
inductive Fault where
  /-- HostHazard: raised by a host write to the device window while STATUS.BUSY = 1 (R324). Safe: the hardware goes on in
  a way no source gives. -/
  | hostHazard
  /-- UnwrittenRead: raised by a command or a host read that meets a buffer cell nothing has written since reset (R39); a host
  read while STATUS.BUSY = 1 is a draw instead (R323, log entry 19). Safe: the hardware returns some value and goes on. -/
  | unwrittenRead
deriving DecidableEq, Repr

/-- Why the model has no transition. -/
inductive Refusal where
  /-- Raised by an arm of `exec` whose command has no meaning yet. Safe. -/
  | notModelled (mnemonic : String)
  /-- HostAccess: raised by a host access of a width or alignment that R62 does not admit. Safe: the model stops. -/
  | hostAccess
  /-- Raised by a host access outside the 1 MiB device window of R61, which is no access to this device. Safe. -/
  | outsideWindow
  /-- Raised by a host branch on a register the host has not read: R96 gives only the last value read. Safe. -/
  | branchBeforeRead
  /-- Raised by a host branch to a label its program does not have (R96). Safe. -/
  | noSuchLabel
deriving DecidableEq, Repr

/-- A host with nothing to do. -/
def HostAgent.idle : HostAgent := ⟨[], 0, [], false⟩

/-- The machine right after reset (R320, R321) with the parameters `c`: every register at the reset value of R21, no cell
written, no command pending. The host starts with no program and the counter of draws at 0 (DESIGN CHOICE, log entries 3
and 5). -/
def State.resetWith (c : Config) : State where
  cfg := c
  cmd := 0
  status := 0
  off := 0
  len := 0
  val := 0
  res := 0
  dlen := 0
  tlen := 0
  bccAcc := 0
  addAcc := 0
  crcAcc := 0
  crcMode := 1
  errInfo := 0
  dbuf := []
  tbuf := []
  pending := none
  host := .idle
  draws := 0

/-- The machine right after reset, with the capacities of spec/95_test_vectors.md (log entry 1). -/
def State.reset : State := State.resetWith Config.vectors

end Sys2Proof.Machine
end

