-- ==== Sys2Proof/Machine/Flags.lean ====
section
/-! DEFINITION. The fields of STATUS (spec/10_state.md R23) and of CRC_MODE (R33), and the error codes
(spec/60_exceptions.md R292). The device has no condition flags (R40). -/

namespace Sys2Proof.Machine

/-- STATUS.BUSY, bit 0. -/
def busyBit (st : Word) : Bool := st.getLsbD 0

/-- STATUS.ERR, bit 1. -/
def errBit (st : Word) : Bool := st.getLsbD 1

/-- STATUS.ERRCODE, bits 15:8. -/
def errCodeField (st : Word) : Byte := st.extractLsb' 8 8

/-- `STATUS <- 0; STATUS.BUSY <- 1`: what a CMD write leaves in STATUS (R290). -/
def statusBusy : Word := 0x00000001#32

/-- `STATUS.BUSY <- 0` (R290). -/
def clearBusy (st : Word) : Word := st &&& 0xFFFFFFFE#32

/-- `STATUS.ERR <- 1; STATUS.ERRCODE <- code` (R290). -/
def setError (code : Byte) (st : Word) : Word :=
  (st &&& 0xFFFF00FD#32) ||| 0x00000002#32 ||| (code.setWidth 32 <<< 8)

/-- CRC_MODE.ALG, bits 1:0 (R33). -/
def algField (m : Word) : BitVec 2 := m.extractLsb' 0 2

/-- The errors of R292. -/
inductive ErrCode where
  | illegalCommand
  | invalidHexChar
  | invalidHexLength
  | invalidAlgorithm
  | negativeRange
  | range
  | capacity
deriving DecidableEq, Repr

/-- The code column of R292; 0x00 is success. -/
def errCodeValue (e : ErrCode) : Byte :=
  match e with
  | .illegalCommand => 0x01#8
  | .invalidHexChar => 0x02#8
  | .invalidHexLength => 0x03#8
  | .invalidAlgorithm => 0x04#8
  | .negativeRange => 0x05#8
  | .range => 0x06#8
  | .capacity => 0x07#8

end Sys2Proof.Machine
end

