-- ==== Sys2Proof/Machine/Ops.lean ====
section
/-! DEFINITION. The shared operations: the cells of a buffer (spec/00_scope.md R11, spec/20_memory.md R63, R68), starting a
command, ending it with or without an error (spec/60_exceptions.md R290, R291, R295, R296), and reset (R320). -/

namespace Sys2Proof.Machine

/-- How a command's pseudocode ends early: it raises an error (R12), or it reads a cell nothing has written (R39). -/
inductive Stop where
  | raise (e : ErrCode) (info : Int)
  | fault (f : Fault)
deriving DecidableEq, Repr

/-- `raise E(info)` (R12). -/
def raise {α : Type} (e : ErrCode) (info : Int) : Except Stop α := .error (.raise e info)

/-- One cell; none where nothing has written it (R39). -/
def readCell (m : Memory) (i : Nat) : Option Byte :=
  match m with
  | [] => none
  | (a, b) :: rest => if a = i then some b else readCell rest i

/-- `D[i] <- v` or `T[i] <- v`; the cell is written from then on (R39). -/
def writeCell (m : Memory) (i : Nat) (v : Byte) : Memory :=
  match m with
  | [] => [(i, v)]
  | (a, b) :: rest =>
    if i < a then (i, v) :: (a, b) :: rest
    else if i = a then (i, v) :: rest
    else (a, b) :: writeCell rest i v

/-- The cells `i, i+1, ..., i+n-1`, lowest first, by a command: an unwritten one is the fault UnwrittenRead (R39). -/
def readCells (m : Memory) (i n : Nat) : Except Stop (List Byte) :=
  match n with
  | 0 => .ok []
  | n + 1 =>
    match readCell m i with
    | none => .error (.fault .unwrittenRead)
    | some b =>
      match readCells m (i + 1) n with
      | .error e => .error e
      | .ok bs => .ok (b :: bs)

/-- The bytes `bs` into the cells `i, i+1, ...`. -/
def writeCells (m : Memory) (i : Nat) (bs : List Byte) : Memory :=
  match bs with
  | [] => m
  | b :: rest => writeCells (writeCell m i b) (i + 1) rest

/-- The value of a big-endian byte sequence: `MemRead` of R11 puts the byte at the lowest index first (R63). -/
def joinBytes (bs : List Byte) : DWord := bs.foldl (fun v b => (v <<< 8) ||| b.setWidth 64) 0

/-- The bytes `MemWrite(a, n, v)` stores, lowest index first: `v[8(n-j)-1 : 8(n-j-1)]` for `j = 0..n-1` (R11). -/
def splitBytes (n : Nat) (v : DWord) : List Byte :=
  (List.range n).map fun j => v.extractLsb' (8 * (n - 1 - j)) 8

/-- `GrowWrite(o, n, v)` of R68. -/
def growWrite (o n : Nat) (v : DWord) (s : State) : Except Stop State :=
  if s.cfg.bufCap < o + n then raise .capacity (o + n : Nat)
  else if s.dlen.toNat < o + n then
    .ok { s with
      dbuf := writeCells (writeCells s.dbuf s.dlen.toNat (List.replicate (o - s.dlen.toNat) 0)) o (splitBytes n v)
      dlen := BitVec.ofNat 32 (o + n) }
  else .ok { s with dbuf := writeCells s.dbuf o (splitBytes n v) }

/-- A host write of `w` to CMD: the steps of R290 up to the completion, which comes after `left` more host actions. It
clears the report of an earlier error, the only "return" from one (R296). -/
def startCommand (w : Word) (left : Nat) (s : State) : State :=
  { s with cmd := w, status := statusBusy, errInfo := 0, pending := some ⟨w, left⟩ }

/-- `STATUS.BUSY <- 0; pending <- none`: the end of every command (R290). -/
def finish (s : State) : State := { s with status := clearBusy s.status, pending := none }

/-- Taking an error (R290, R295): STATUS.ERR, STATUS.ERRCODE and ERRINFO, and nothing else. -/
def reportError (e : ErrCode) (info : Int) (s : State) : State :=
  { s with status := setError (errCodeValue e) s.status, errInfo := BitVec.ofInt 32 info }

/-- The completion of a command (R290) whose pseudocode, run on `s`, gave `r`. A raise discards every write it made, so the
report is made on `s` itself (R12, R291). -/
def complete (r : Except Stop State) (s : State) : Host.Outcome State Fault Refusal :=
  match r with
  | .ok s' => .next (finish s')
  | .error (.raise e info) => .next (finish (reportError e info s))
  | .error (.fault f) => .fault f

/-- A pulse on RST (R320): the registers, the written bits and the pending command. The parameters, the host and the
counter of draws are no state of the device. -/
def applyReset (s : State) : State := { State.resetWith s.cfg with host := s.host, draws := s.draws }

end Sys2Proof.Machine
end

