-- ==== Sys2Proof/Machine/Operands.lean ====
section
/-! DEFINITION. The operand forms (spec/30_encoding.md R91): OFF and LEN as signed integers, the low bits of VAL, and the
clamped ranges of spec/00_scope.md R15 and spec/20_memory.md R69. -/

namespace Sys2Proof.Machine

/-- `b2u(b) = zext_32(b)` (R120). -/
def b2u (b : Byte) : Word := b.setWidth 32

/-- VAL[7:0] (R26). -/
def valByte (s : State) : Byte := s.val.extractLsb' 0 8

/-- VAL[15:0] (R26). -/
def valHalf (s : State) : Half := s.val.extractLsb' 0 16

/-- VAL[31:0] (R26). -/
def valWord (s : State) : Word := s.val.extractLsb' 0 32

/-- `o <- s32(x[OFF]); if o < 0 then raise NEGATIVE_RANGE(1)` (R24, R292). -/
def offsetOperand (s : State) : Except Stop Nat :=
  if s.off.toInt < 0 then raise .negativeRange 1 else .ok s.off.toInt.toNat

/-- `clampEnd(off, len, size)` of R15, on integers. -/
def clampEnd (off len size : Int) : Int := min (off + len) size

/-- `n` of R69: the bytes in the clamped range, 0 when it is empty. -/
def rangeCount (off len size : Int) : Nat := (max 0 (clampEnd off len size - off)).toNat

/-- `DataRange()` of R69: the first index and the number of bytes. -/
def dataRange (s : State) : Except Stop (Nat × Nat) :=
  match offsetOperand s with
  | .error e => .error e
  | .ok o =>
    if s.len.toInt < 0 then raise .negativeRange 2
    else .ok (o, rangeCount o s.len.toInt s.dlen.toNat)

/-- The first index and the bytes of the clamped DBUF range, each cell read (R69, R39). -/
def dataBytes (s : State) : Except Stop (Nat × List Byte) :=
  match dataRange s with
  | .error e => .error e
  | .ok (o, n) =>
    match readCells s.dbuf o n with
    | .error e => .error e
    | .ok bs => .ok (o, bs)

end Sys2Proof.Machine
end

