-- ==== Sys2Proof/Machine/Additive.lean ====
section
/-! DEFINITION. The additive_checksum commands (spec/44_additive.md R230 to R236). -/

namespace Sys2Proof.Machine

/-- `addFin(s)` of R230: the sum as it is up to 255 in signed terms, else the low byte inverted, plus 1. -/
def addFin (sum : Word) : Word := if sum.toInt ≤ 255 then sum else ((~~~sum).extractLsb' 0 8).setWidth 32 + 1

/-- `addStep(acc, b)` modulo 2^32 (R231). -/
def addStep (acc : Word) (b : Byte) : Word := acc + b2u b

/-- `addFold` (R231): the step over the bytes in order. -/
def addFold (acc : Word) (bs : List Byte) : Word := bs.foldl addStep acc

/-- ADD_INIT (R232). -/
def execAddInit (s : State) : Host.Outcome State Fault Refusal := complete (.ok { s with addAcc := valWord s }) s

/-- ADD_UPDB (R233). -/
def execAddUpdb (s : State) : Host.Outcome State Fault Refusal :=
  complete (.ok { s with addAcc := addStep s.addAcc (valByte s) }) s

/-- ADD_UPD (R234). -/
def execAddUpd (s : State) : Host.Outcome State Fault Refusal :=
  complete
    (match dataBytes s with
      | .error e => .error e
      | .ok (_, bs) => .ok { s with addAcc := addFold s.addAcc bs }) s

/-- ADD_FIN (R235). -/
def execAddFin (s : State) : Host.Outcome State Fault Refusal :=
  complete (.ok { s with res := (addFin s.addAcc).setWidth 64 }) s

/-- ADD_FINB (R236): the fold of a copy. -/
def execAddFinb (s : State) : Host.Outcome State Fault Refusal :=
  complete
    (match dataBytes s with
      | .error e => .error e
      | .ok (_, bs) => .ok { s with res := (addFin (addFold s.addAcc bs)).setWidth 64 }) s

end Sys2Proof.Machine
end

