-- ==== Sys2Proof/Machine/Bcc.lean ====
section
/-! DEFINITION. The bcc_checksum commands (spec/43_bcc.md R210 to R215). -/

namespace Sys2Proof.Machine

/-- `bccStep(acc, b)` (R210). -/
def bccStep (acc : Word) (b : Byte) : Word := acc ^^^ b2u b

/-- `bccFold` (R210): the step over the bytes in order. -/
def bccFold (acc : Word) (bs : List Byte) : Word := bs.foldl bccStep acc

/-- `bccFin(acc) = acc` (R210). -/
def bccFin (acc : Word) : Word := acc

/-- BCC_INIT (R211). -/
def execBccInit (s : State) : Host.Outcome State Fault Refusal := complete (.ok { s with bccAcc := valWord s }) s

/-- BCC_UPDB (R212). -/
def execBccUpdb (s : State) : Host.Outcome State Fault Refusal :=
  complete (.ok { s with bccAcc := bccStep s.bccAcc (valByte s) }) s

/-- BCC_UPD (R213). -/
def execBccUpd (s : State) : Host.Outcome State Fault Refusal :=
  complete
    (match dataBytes s with
      | .error e => .error e
      | .ok (_, bs) => .ok { s with bccAcc := bccFold s.bccAcc bs }) s

/-- BCC_FIN (R214). -/
def execBccFin (s : State) : Host.Outcome State Fault Refusal :=
  complete (.ok { s with res := (bccFin s.bccAcc).setWidth 64 }) s

/-- BCC_FINB (R215): the fold of a copy. -/
def execBccFinb (s : State) : Host.Outcome State Fault Refusal :=
  complete
    (match dataBytes s with
      | .error e => .error e
      | .ok (_, bs) => .ok { s with res := (bccFin (bccFold s.bccAcc bs)).setWidth 64 }) s

end Sys2Proof.Machine
end

