-- ==== Sys2Proof/Machine/Packer.lean ====
section
/-! DEFINITION. The byte_packer commands (spec/41_packer.md R120 to R136). -/

namespace Sys2Proof.Machine

/-- `hexVal(c)` of R121; none is INVALID. -/
def hexVal (c : Half) : Option Byte :=
  if 0x30 ≤ c.toNat ∧ c.toNat ≤ 0x39 then some (BitVec.ofNat 8 (c.toNat - 0x30))
  else if 0x41 ≤ c.toNat ∧ c.toNat ≤ 0x46 then some (BitVec.ofNat 8 (c.toNat - 0x41 + 10))
  else if 0x61 ≤ c.toNat ∧ c.toNat ≤ 0x66 then some (BitVec.ofNat 8 (c.toNat - 0x61 + 10))
  else none

/-- The pseudocode that R122, R123 and R124 share, for `n` bytes. -/
def unpack (n : Nat) (s : State) : Except Stop State :=
  match offsetOperand s with
  | .error e => .error e
  | .ok o =>
    if s.dlen.toNat < o + n then raise .range (o + n : Nat)
    else
      match readCells s.dbuf o n with
      | .error e => .error e
      | .ok bs => .ok { s with res := joinBytes bs }

/-- The pseudocode that R125, R126 and R127 share, for `n` bytes of VAL. -/
def pack (n : Nat) (s : State) : Except Stop State :=
  match offsetOperand s with
  | .error e => .error e
  | .ok o => growWrite o n s.val s

/-- The pseudocode that R128, R129 and R130 share, for `n` bytes of VAL. -/
def append (n : Nat) (s : State) : Except Stop State := growWrite s.dlen.toNat n s.val s

/-- `{v[3:0], v[7:4]}` (R131). -/
def swapNibbles (v : Byte) : Byte := v.extractLsb' 0 4 ++ v.extractLsb' 4 4

/-- `{v[7:0], v[15:8]}` (R132). -/
def swapBytes (v : Half) : Half := v.extractLsb' 0 8 ++ v.extractLsb' 8 8

/-- `{v[15:0], v[31:16]}` (R133). -/
def swapHalves (v : Word) : Word := v.extractLsb' 0 16 ++ v.extractLsb' 16 16

/-- `{v[31:0], v[63:32]}` (R134). -/
def swapWords (v : DWord) : DWord := v.extractLsb' 0 32 ++ v.extractLsb' 32 32

/-- UNPACK16 (R122). -/
def execUnpack16 (s : State) : Host.Outcome State Fault Refusal := complete (unpack 2 s) s

/-- UNPACK32 (R123). -/
def execUnpack32 (s : State) : Host.Outcome State Fault Refusal := complete (unpack 4 s) s

/-- UNPACK64 (R124). -/
def execUnpack64 (s : State) : Host.Outcome State Fault Refusal := complete (unpack 8 s) s

/-- PACK16 (R125). -/
def execPack16 (s : State) : Host.Outcome State Fault Refusal := complete (pack 2 s) s

/-- PACK32 (R126). -/
def execPack32 (s : State) : Host.Outcome State Fault Refusal := complete (pack 4 s) s

/-- PACK64 (R127). -/
def execPack64 (s : State) : Host.Outcome State Fault Refusal := complete (pack 8 s) s

/-- APPEND16 (R128). -/
def execAppend16 (s : State) : Host.Outcome State Fault Refusal := complete (append 2 s) s

/-- APPEND32 (R129). -/
def execAppend32 (s : State) : Host.Outcome State Fault Refusal := complete (append 4 s) s

/-- APPEND64 (R130). -/
def execAppend64 (s : State) : Host.Outcome State Fault Refusal := complete (append 8 s) s

/-- FLIP8 (R131). -/
def execFlip8 (s : State) : Host.Outcome State Fault Refusal :=
  complete (.ok { s with res := (swapNibbles (valByte s)).setWidth 64 }) s

/-- FLIP16 (R132). -/
def execFlip16 (s : State) : Host.Outcome State Fault Refusal :=
  complete (.ok { s with res := (swapBytes (valHalf s)).setWidth 64 }) s

/-- FLIP32 (R133). -/
def execFlip32 (s : State) : Host.Outcome State Fault Refusal :=
  complete (.ok { s with res := (swapHalves (valWord s)).setWidth 64 }) s

/-- FLIP64 (R134). -/
def execFlip64 (s : State) : Host.Outcome State Fault Refusal :=
  complete (.ok { s with res := swapWords s.val }) s

/-- BYTE2U (R135). -/
def execByte2u (s : State) : Host.Outcome State Fault Refusal :=
  complete (.ok { s with res := (b2u (valByte s)).setWidth 64 }) s

/-- HEXCHAR (R136). -/
def execHexchar (s : State) : Host.Outcome State Fault Refusal :=
  complete
    (match hexVal (valHalf s) with
      | none => raise .invalidHexChar (valHalf s).toNat
      | some v => .ok { s with res := v.setWidth 64 }) s

end Sys2Proof.Machine
end

