-- ==== Sys2Proof/Machine/Hex.lean ====
section
/-! DEFINITION. The hex_encoder and hex_decoder commands (spec/42_hex.md R170 to R177) and the hex text of
spec/00_scope.md R14. -/

namespace Sys2Proof.Machine

/-- `hexDigit(v) = "0123456789ABCDEF"[u(v)]`, an ASCII code (R14). -/
def hexDigit (v : BitVec 4) : Byte :=
  if v.toNat < 10 then BitVec.ofNat 8 (0x30 + v.toNat) else BitVec.ofNat 8 (0x41 + (v.toNat - 10))

/-- `hex2(b)`, high nibble first (R14). -/
def hex2 (b : Byte) : List Byte := [hexDigit (b.extractLsb' 4 4), hexDigit (b.extractLsb' 0 4)]

/-- `hex8(w)`, most significant digit first (R14). -/
def hex8 (w : Word) : List Byte :=
  hex2 (w.extractLsb' 24 8) ++ hex2 (w.extractLsb' 16 8) ++ hex2 (w.extractLsb' 8 8) ++ hex2 (w.extractLsb' 0 8)

/-- `asciiOrDot(b)` (R171). -/
def asciiOrDot (b : Byte) : Byte := if 0x20 ≤ b.toNat ∧ b.toNat ≤ 0x7E then b else 0x2E#8

/-- The text of HEXENC (R172). -/
def hexText (bs : List Byte) : List Byte := bs.flatMap hex2

/-- The text of HEXENCSP: `join(" ", ...)` (R170, R173). -/
def hexTextSpaced (bs : List Byte) : List Byte :=
  match bs with
  | [] => []
  | [b] => hex2 b
  | b :: rest => hex2 b ++ 0x20#8 :: hexTextSpaced rest

/-- Entry `j` of a dump line's hex field, with the space after each of the first 15 entries (R175 item 3). -/
def dumpEntry (bs : List Byte) (j : Nat) : List Byte :=
  (match bs[j]? with
    | some b => hex2 b
    | none => [0x20#8, 0x20#8]) ++ (if j < 15 then [0x20#8] else [])

/-- `DumpLine(a, k)` for the bytes `bs` from index `a` (R175): the offset, the hex field of 16 entries, the gutter, LF. -/
def dumpLine (a : Nat) (bs : List Byte) : List Byte :=
  [0x30#8, 0x78#8] ++ hex8 (BitVec.ofNat 32 a) ++ [0x20#8] ++ (List.range 16).flatMap (dumpEntry bs) ++ [0x20#8] ++
    bs.map asciiOrDot ++ [0x0A#8]

/-- The text of HEXDUMP for the bytes `bs` from index `o`: a line for every 16 bytes of the range (R174). -/
def dumpText (o : Nat) (bs : List Byte) : List Byte :=
  (List.range ((bs.length + 15) / 16)).flatMap fun l => dumpLine (o + 16 * l) ((bs.drop (16 * l)).take 16)

/-- `TextOut(s)` (R170). -/
def textOut (text : List Byte) (s : State) : Except Stop State :=
  if s.cfg.txtCap < text.length then raise .capacity (text.length : Nat)
  else .ok { s with tbuf := writeCells s.tbuf 0 text, tlen := BitVec.ofNat 32 text.length }

/-- The pseudocode that the encoders share: read the clamped range, then write the text it gives (R172 to R174). -/
def encodeRange (text : Nat → List Byte → List Byte) (s : State) : Except Stop State :=
  match dataBytes s with
  | .error e => .error e
  | .ok (o, bs) => textOut (text o bs) s

/-- The value of the hex digit at TBUF index `i`, read by HEXDEC (R177). -/
def hexDigitAt (m : Memory) (i : Nat) : Except Stop Byte :=
  match readCell m i with
  | none => .error (.fault .unwrittenRead)
  | some c =>
    match hexVal (c.setWidth 16) with
    | none => raise .invalidHexChar (i : Nat)
    | some v => .ok v

/-- The bytes of the `n` digit pairs from TBUF index `i`, the first digit of a pair being the high nibble (R177). -/
def decodePairs (m : Memory) (i n : Nat) : Except Stop (List Byte) :=
  match n with
  | 0 => .ok []
  | n + 1 =>
    match hexDigitAt m i with
    | .error e => .error e
    | .ok hi =>
      match hexDigitAt m (i + 1) with
      | .error e => .error e
      | .ok lo =>
        match decodePairs m (i + 2) n with
        | .error e => .error e
        | .ok bs => .ok (((hi <<< 4) ||| lo) :: bs)

/-- `m` of R176, the usable length of a decode range. -/
def usableLength (o : Nat) (s : State) : Int := clampEnd o s.len.toInt s.tlen.toNat - o

/-- The pseudocode of HEXDEC (R177). -/
def hexDecode (s : State) : Except Stop State :=
  match offsetOperand s with
  | .error e => .error e
  | .ok o =>
    if usableLength o s ≤ 0 ∨ usableLength o s % 2 = 1 then raise .invalidHexLength (usableLength o s)
    else if s.cfg.bufCap < (usableLength o s).toNat / 2 then raise .capacity ((usableLength o s).toNat / 2 : Nat)
    else
      match decodePairs s.tbuf o ((usableLength o s).toNat / 2) with
      | .error e => .error e
      | .ok bs => .ok { s with dbuf := writeCells s.dbuf 0 bs, dlen := BitVec.ofNat 32 ((usableLength o s).toNat / 2) }

/-- HEXENC (R172). -/
def execHexenc (s : State) : Host.Outcome State Fault Refusal := complete (encodeRange (fun _ bs => hexText bs) s) s

/-- HEXENCSP (R173). -/
def execHexencsp (s : State) : Host.Outcome State Fault Refusal := complete (encodeRange (fun _ bs => hexTextSpaced bs) s) s

/-- HEXDUMP (R174). -/
def execHexdump (s : State) : Host.Outcome State Fault Refusal := complete (encodeRange dumpText s) s

/-- HEXDEC (R177). -/
def execHexdec (s : State) : Host.Outcome State Fault Refusal := complete (hexDecode s) s

end Sys2Proof.Machine
end

