-- ==== Sys2Proof/Machine/Dispatch.lean ====
section
/-! DEFINITION. One arm for each command: the atomic step in which the command engine runs it to completion (R290). -/

namespace Sys2Proof.Machine

def exec (i : Instr) (s : State) : Host.Outcome State Fault Refusal :=
  match i with
  | .unpack16 => Sys2Proof.Machine.execUnpack16 s
  | .unpack32 => Sys2Proof.Machine.execUnpack32 s
  | .unpack64 => Sys2Proof.Machine.execUnpack64 s
  | .pack16 => Sys2Proof.Machine.execPack16 s
  | .pack32 => Sys2Proof.Machine.execPack32 s
  | .pack64 => Sys2Proof.Machine.execPack64 s
  | .append16 => Sys2Proof.Machine.execAppend16 s
  | .append32 => Sys2Proof.Machine.execAppend32 s
  | .append64 => Sys2Proof.Machine.execAppend64 s
  | .flip8 => Sys2Proof.Machine.execFlip8 s
  | .flip16 => Sys2Proof.Machine.execFlip16 s
  | .flip32 => Sys2Proof.Machine.execFlip32 s
  | .flip64 => Sys2Proof.Machine.execFlip64 s
  | .byte2u => Sys2Proof.Machine.execByte2u s
  | .hexchar => Sys2Proof.Machine.execHexchar s
  | .hexenc => Sys2Proof.Machine.execHexenc s
  | .hexencsp => Sys2Proof.Machine.execHexencsp s
  | .hexdump => Sys2Proof.Machine.execHexdump s
  | .hexdec => Sys2Proof.Machine.execHexdec s
  | .bccInit => Sys2Proof.Machine.execBccInit s
  | .bccUpdb => Sys2Proof.Machine.execBccUpdb s
  | .bccUpd => Sys2Proof.Machine.execBccUpd s
  | .bccFin => Sys2Proof.Machine.execBccFin s
  | .bccFinb => Sys2Proof.Machine.execBccFinb s
  | .addInit => Sys2Proof.Machine.execAddInit s
  | .addUpdb => Sys2Proof.Machine.execAddUpdb s
  | .addUpd => Sys2Proof.Machine.execAddUpd s
  | .addFin => Sys2Proof.Machine.execAddFin s
  | .addFinb => Sys2Proof.Machine.execAddFinb s
  | .crcInit mode => Sys2Proof.Machine.execCrcInit mode s
  | .crcUpdb => Sys2Proof.Machine.execCrcUpdb s
  | .crcUpd => Sys2Proof.Machine.execCrcUpd s
  | .crcFin => Sys2Proof.Machine.execCrcFin s
  | .crcFinb => Sys2Proof.Machine.execCrcFinb s

end Sys2Proof.Machine
end

