-- ==== Sys2Proof/Machine/HostBus.lean ====
section
/-! DEFINITION. The host's side of the machine: the device window (spec/20_memory.md R61, R62, R70), the registers as the host
reads and writes them (spec/10_state.md R21 to R35), the busy hazards (spec/70_reset_and_hazards.md R323, R324), and the host's
program (spec/30_encoding.md R96, R97). -/

namespace Sys2Proof.Machine

/-- The offset column of R21. -/
def regOffset (r : Reg) : Nat :=
  match r with
  | .cmd => 0x000
  | .status => 0x004
  | .off => 0x008
  | .len => 0x00C
  | .valLo => 0x010
  | .valHi => 0x014
  | .resLo => 0x018
  | .resHi => 0x01C
  | .dlen => 0x020
  | .tlen => 0x024
  | .bccAcc => 0x028
  | .addAcc => 0x02C
  | .crcAcc => 0x030
  | .crcMode => 0x034
  | .errInfo => 0x038

/-- The register at an offset; none at the reserved offsets of R35. -/
def regAt (o : Nat) : Option Reg :=
  match o with
  | 0x000 => some .cmd
  | 0x004 => some .status
  | 0x008 => some .off
  | 0x00C => some .len
  | 0x010 => some .valLo
  | 0x014 => some .valHi
  | 0x018 => some .resLo
  | 0x01C => some .resHi
  | 0x020 => some .dlen
  | 0x024 => some .tlen
  | 0x028 => some .bccAcc
  | 0x02C => some .addAcc
  | 0x030 => some .crcAcc
  | 0x034 => some .crcMode
  | 0x038 => some .errInfo
  | _ => none

/-- What a host access reaches (R61). -/
inductive Target where
  | reg (r : Reg)
  | dcell (i : Nat)
  | tcell (i : Nat)
  /-- Reads 0, ignores writes (R35, R61). -/
  | reserved
deriving DecidableEq, Repr

/-- Where an access of `width` bits at offset `o` of the window goes: the ranges of R61 and the widths of R62. An access in the
DBUF or TBUF range is 8 bits wide beyond the capacity too (DEDUCED, log entry 7). -/
def locateOffset (c : Config) (o width : Nat) : Except Refusal Target :=
  if o < 0x01000 then
    if width = 32 ∧ o % 4 = 0 then
      match regAt o with
      | some r => .ok (.reg r)
      | none => .ok .reserved
    else .error .hostAccess
  else if 0x10000 ≤ o ∧ o < 0x20000 then
    if width = 8 then
      if o - 0x10000 < c.bufCap then .ok (.dcell (o - 0x10000)) else .ok .reserved
    else .error .hostAccess
  else if 0x80000 ≤ o then
    if width = 8 then
      if o - 0x80000 < c.txtCap then .ok (.tcell (o - 0x80000)) else .ok .reserved
    else .error .hostAccess
  else if width = 8 ∨ (width = 32 ∧ o % 4 = 0) then .ok .reserved
  else .error .hostAccess

/-- Where an access of `width` bits at a bus address goes: the device answers in the 1 MiB window at DEV_BASE (R61; log
entry 8). -/
def locate (c : Config) (addr width : Nat) : Except Refusal Target :=
  if addr < c.devBase ∨ c.devBase + 0x100000 ≤ addr then .error .outsideWindow
  else locateOffset c (addr - c.devBase) width

/-- A register as the host reads it (R21 to R34). -/
def readReg (r : Reg) (s : State) : Word :=
  match r with
  | .cmd => s.cmd
  | .status => s.status
  | .off => s.off
  | .len => s.len
  | .valLo => s.val.extractLsb' 0 32
  | .valHi => s.val.extractLsb' 32 32
  | .resLo => s.res.extractLsb' 0 32
  | .resHi => s.res.extractLsb' 32 32
  | .dlen => s.dlen
  | .tlen => s.tlen
  | .bccAcc => s.bccAcc
  | .addAcc => s.addAcc
  | .crcAcc => s.crcAcc
  | .crcMode => s.crcMode
  | .errInfo => s.errInfo

/-- A host write to a register while the device is idle: CMD starts the command (R22, R290), OFF, LEN and the halves of VAL take
every value (R24 to R26), DLEN and TLEN take the nearest legal one (R28, R29), and a read-only register ignores it (R21). The
time to the command's completion is drawn (R329). -/
def writeReg (r : Reg) (w : Word) (s : State) : State :=
  match r with
  | .cmd => startCommand w (Config.latency s.draws) { s with draws := s.draws + 1 }
  | .off => { s with off := w }
  | .len => { s with len := w }
  | .valLo => { s with val := s.val.extractLsb' 32 32 ++ w }
  | .valHi => { s with val := w ++ s.val.extractLsb' 0 32 }
  | .dlen => { s with dlen := BitVec.ofNat 32 (min w.toNat s.cfg.bufCap) }
  | .tlen => { s with tlen := BitVec.ofNat 32 (min w.toNat s.cfg.txtCap) }
  | .status | .resLo | .resHi | .bccAcc | .addAcc | .crcAcc | .crcMode | .errInfo => s

/-- A host write that reaches a target of the idle device (R61, R70). -/
def writeTarget (t : Target) (data : Word) (s : State) : State :=
  match t with
  | .reg r => writeReg r data s
  | .dcell i => { s with dbuf := writeCell s.dbuf i (data.extractLsb' 0 8) }
  | .tcell i => { s with tbuf := writeCell s.tbuf i (data.extractLsb' 0 8) }
  | .reserved => s

/-- What a host read of a target of the idle device returns; none for a cell nothing has written (R39). -/
def readTarget (t : Target) (s : State) : Option Word :=
  match t with
  | .reg r => some (readReg r s)
  | .dcell i => (readCell s.dbuf i).map fun b => b.setWidth 32
  | .tcell i => (readCell s.tbuf i).map fun b => b.setWidth 32
  | .reserved => some 0

/-- The host takes note of a value it read. -/
def noteRead (addr : Nat) (v : Word) (s : State) : State :=
  { s with host := { s.host with seen := (addr, v) :: s.host.seen } }

/-- A host write. While STATUS.BUSY = 1 it is the hazard of R324, wherever in the window it goes. -/
def hostWrite (addr width : Nat) (data : Word) (s : State) : Host.Outcome State Fault Refusal :=
  match locate s.cfg addr width with
  | .error r => .refused r
  | .ok t => if busyBit s.status then .fault .hostHazard else .next (writeTarget t data s)

/-- A host read. No read changes the device (R70); while STATUS.BUSY = 1 a read of anything but STATUS returns a free value
of the access's width (R323), and a read of a cell nothing has written is a fault otherwise (R39). A read of such a cell while
BUSY = 1 falls under both rules, which the spec does not rank: the model takes the draw (DESIGN CHOICE, log entry 19). -/
def hostRead (addr width : Nat) (s : State) : Host.Outcome State Fault Refusal :=
  match locate s.cfg addr width with
  | .error r => .refused r
  | .ok t =>
    if busyBit s.status = true ∧ t ≠ .reg .status then
      .next (noteRead addr (Config.busyRead s.draws &&& BitVec.ofNat 32 (2 ^ width - 1)) { s with draws := s.draws + 1 })
    else
      match readTarget t s with
      | none => .fault .unwrittenRead
      | some v => .next (noteRead addr v s)

/-- The latest value in a record of reads from a bus address. -/
def lastSeen (addr : Nat) (seen : List (Nat × Word)) : Option Word :=
  match seen with
  | [] => none
  | (a, v) :: rest => if a = addr then some v else lastSeen addr rest

/-- REG.FIELD, bits `hi:lo` of the last value the host read from REG (R96). -/
def lastField (r : Reg) (hi lo : Nat) (s : State) : Option Nat :=
  (lastSeen (s.cfg.devBase + regOffset r) s.host.seen).map fun v => (v.toNat >>> lo) % 2 ^ (hi + 1 - lo)

/-- The place of a label in a host program. -/
def findLabel (l : Nat) (prog : List HostOp) : Option Nat :=
  match prog with
  | [] => none
  | op :: rest => if op = .label l then some 0 else (findLabel l rest).map (· + 1)

/-- A taken branch (R96). -/
def hostGoto (l : Nat) (s : State) : Host.Outcome State Fault Refusal :=
  match findLabel l s.host.prog with
  | none => .refused .noSuchLabel
  | some k => .next { s with host := { s.host with pc := k } }

/-- One host action, the host's pc already past it (R96, R97, R320). -/
def hostAction (op : HostOp) (s : State) : Host.Outcome State Fault Refusal :=
  match op with
  | .write addr width data => hostWrite addr width data s
  | .read addr width => hostRead addr width s
  | .label _ => .next s
  | .branch nonzero r hi lo l =>
    match lastField r hi lo s with
    | none => .refused .branchBeforeRead
    | some v => if (v != 0) = nonzero then hostGoto l s else .next s
  | .stopIf r hi lo =>
    match lastField r hi lo s with
    | none => .refused .branchBeforeRead
    | some v => if v ≠ 0 then .next { s with host := { s.host with failed := true } } else .next s
  | .reset => .next (applyReset s)

/-- The host's next action; a host that has failed or has run its program to the end does nothing. -/
def hostStep (s : State) : Host.Outcome State Fault Refusal :=
  if s.host.failed then .next s
  else
    match s.host.prog[s.host.pc]? with
    | none => .next s
    | some op => hostAction op { s with host := { s.host with pc := s.host.pc + 1 } }

/-- `wr REG, imm32` (R96). -/
def asmWr (c : Config) (r : Reg) (w : Word) : HostOp := .write (c.devBase + regOffset r) 32 w

/-- `rd REG` (R96). -/
def asmRd (c : Config) (r : Reg) : HostOp := .read (c.devBase + regOffset r) 32

/-- `wrb D[i], imm8` (R96). -/
def asmWrbD (c : Config) (i : Nat) (b : Byte) : HostOp := .write (c.devBase + 0x10000 + i) 8 (b.setWidth 32)

/-- `wrb T[i], imm8` (R96). -/
def asmWrbT (c : Config) (i : Nat) (b : Byte) : HostOp := .write (c.devBase + 0x80000 + i) 8 (b.setWidth 32)

/-- `rdb D[i]` (R96). -/
def asmRdbD (c : Config) (i : Nat) : HostOp := .read (c.devBase + 0x10000 + i) 8

/-- `rdb T[i]` (R96). -/
def asmRdbT (c : Config) (i : Nat) : HostOp := .read (c.devBase + 0x80000 + i) 8

/-- `wait` (R97), its label being `l`. -/
def asmWait (c : Config) (l : Nat) : List HostOp := [.label l, asmRd c .status, .branch true .status 0 0 l]

/-- `exec MNEMONIC` (R97) for the command word `w`. -/
def asmExec (c : Config) (w : Word) (l : Nat) : List HostOp := asmWr c .cmd w :: asmWait c l

/-- `wr VAL, imm64` (R97). -/
def asmWrVal (c : Config) (v : DWord) : List HostOp :=
  [asmWr c .valLo (v.extractLsb' 0 32), asmWr c .valHi (v.extractLsb' 32 32)]

/-- `rd RES` (R97). -/
def asmRdRes (c : Config) : List HostOp := [asmRd c .resLo, asmRd c .resHi]

/-- The byte writes of `wrd D[i], b0 b1 ... bk` (R97). -/
def asmBytesD (c : Config) (i : Nat) (bs : List Byte) : List HostOp :=
  match bs with
  | [] => []
  | b :: rest => asmWrbD c i b :: asmBytesD c (i + 1) rest

/-- `wrd D[i], b0 b1 ... bk` (R97). -/
def asmWrd (c : Config) (i : Nat) (bs : List Byte) : List HostOp :=
  asmBytesD c i bs ++ [asmWr c .dlen (BitVec.ofNat 32 (i + bs.length))]

/-- The character writes of `wrs T[i], "text"` (R97). -/
def asmBytesT (c : Config) (i : Nat) (text : List Byte) : List HostOp :=
  match text with
  | [] => []
  | b :: rest => asmWrbT c i b :: asmBytesT c (i + 1) rest

/-- `wrs T[i], "text"` (R97). -/
def asmWrs (c : Config) (i : Nat) (text : List Byte) : List HostOp :=
  asmBytesT c i text ++ [asmWr c .tlen (BitVec.ofNat 32 (i + text.length))]

/-- `chk` (R97). -/
def asmChk (c : Config) : List HostOp := [asmRd c .status, .stopIf .status 1 1]

end Sys2Proof.Machine
end

