-- ==== Sys2Proof/Machine/Step.lean ====
section
/-! DEFINITION. One step of the machine: an action of the host, or the completion of the pending command by the command
engine (spec/10_state.md R20; spec/60_exceptions.md R290). -/

namespace Sys2Proof.Machine

/-- The command engine's atomic step on the word `w` (R290): decode it, then run the rule of its opcode. A word that is no
command raises ILLEGAL_COMMAND(w) before any operand is read (R94, R95). -/
def runCommand (w : Word) (s : State) : Host.Outcome State Fault Refusal :=
  match decode w with
  | .ok i => exec i s
  | .error _ => complete (raise .illegalCommand w.toNat) s

/-- One step. A pending command completes when its LATENCY has run out; until then the host acts (log entry 3). An idle
machine stays as it is. -/
def step (s : State) : Host.Outcome State Fault Refusal :=
  match s.pending with
  | none => hostStep s
  | some p =>
    match p.left with
    | 0 => runCommand p.word s
    | left + 1 => hostStep { s with pending := some ⟨p.word, left⟩ }

/-- The state after a host write of the command word to CMD (R290), with no host action left before its completion: the next
step runs that command (log entry 5). -/
def State.withFetchWord (s : State) (nbits w : Nat) : State := startCommand (BitVec.ofNat 32 (w % 2 ^ nbits)) 0 s

end Sys2Proof.Machine
end

