-- ==== Sys2Proof/Safety.lean ====
section
/-! DEFINITION. The invariant of the machine, and the words the statements are made of: how a command ends, what a range of
cells holds, which words are illegal. They are written from the spec's text, apart from the operations the meanings use. -/

namespace Sys2Proof.Machine

/-- What every step keeps (spec/10_state.md R23, R28, R29, R33, R34, R36, R37, R39; spec/60_exceptions.md R290, R292). -/
structure Inv (s : State) : Prop where
  /-- The parameters are in the ranges of R6. -/
  cfg_legal : s.cfg.Legal
  /-- DBUF is in its canonical form. -/
  dbuf_wf : Memory.wf s.dbuf
  /-- TBUF is in its canonical form. -/
  tbuf_wf : Memory.wf s.tbuf
  /-- DBUF has BUF_CAP cells (R36). -/
  dbuf_bound : ∀ c ∈ s.dbuf, c.1 < s.cfg.bufCap
  /-- TBUF has TXT_CAP cells (R37). -/
  tbuf_bound : ∀ c ∈ s.tbuf, c.1 < s.cfg.txtCap
  /-- DLEN's legal values (R28). -/
  dlen_le : s.dlen.toNat ≤ s.cfg.bufCap
  /-- TLEN's legal values (R29). -/
  tlen_le : s.tlen.toNat ≤ s.cfg.txtCap
  /-- CRC_MODE is TABLE or SHIFT, its reserved bits zero (R33). -/
  crcMode_held : s.crcMode = 0x00000001#32 ∨ s.crcMode = 0x00000002#32
  /-- The reserved bits of STATUS read 0 (R23). -/
  status_reserved : s.status &&& 0xFFFF00FC#32 = 0
  /-- Codes 0x08 to 0xFF are never written (R292). -/
  errCode_le : s.status.extractLsb' 8 8 ≤ 0x07#8
  /-- ERRCODE is 0x00 just when ERR is 0 (R23, R292). -/
  err_iff_code : s.status.getLsbD 1 = true ↔ s.status.extractLsb' 8 8 ≠ 0
  /-- ERRINFO is 0 when the last command succeeded (R34). -/
  no_error_no_info : s.status.getLsbD 1 = false → s.errInfo = 0
  /-- `pending` is none just when STATUS.BUSY = 0 (R39). -/
  busy_iff_pending : s.status.getLsbD 0 = s.pending.isSome
  /-- From a CMD write to its completion: CMD holds the pending word, STATUS is BUSY alone, ERRINFO is 0 (R290). -/
  pending_fresh : ∀ p, s.pending = some p → s.cmd = p.word ∧ s.status = 0x00000001#32 ∧ s.errInfo = 0

/-- The state in which a command that raises nothing ends, `s` being the state with its writes made: BUSY clears and nothing
is pending (R290). -/
def completed (s : State) : State := { s with status := s.status &&& 0xFFFFFFFE#32, pending := none }

/-- The state in which a command that raises an error ends, `s` being the state before it: ERR set, ERRCODE the code, BUSY
clear, ERRINFO the information, nothing pending, and nothing else changed (R290, R291). -/
def failed (code : Byte) (info : Word) (s : State) : State :=
  { s with
    status := (s.status &&& 0xFFFF00FC#32) ||| 0x00000002#32 ||| (code.setWidth 32 <<< 8)
    errInfo := info
    pending := none }

/-- The cells of `m` from index `o` on hold the bytes `bs`. -/
def CellsHold (m : Memory) (o : Nat) (bs : List Byte) : Prop :=
  ∀ j b, bs[j]? = some b → readCell m (o + j) = some b

/-- OFF and LEN are not negative and the clamped DBUF range holds the bytes `bs`, all of it written (R15, R69). -/
structure RangeHolds (s : State) (bs : List Byte) : Prop where
  off_nonneg : 0 ≤ s.off.toInt
  len_nonneg : 0 ≤ s.len.toInt
  length_eq : (bs.length : Int) = max 0 (min (s.off.toInt + s.len.toInt) s.dlen.toNat - s.off.toInt)
  cells : CellsHold s.dbuf s.off.toInt.toNat bs

/-- The number that bytes denote, the first the most significant (R11, R63). -/
def bigEndian (bs : List Byte) : Nat := bs.foldl (fun v b => 256 * v + b.toNat) 0

/-- The characters "0123456789ABCDEF" (R14). -/
def upperDigits : List Byte :=
  [0x30#8, 0x31#8, 0x32#8, 0x33#8, 0x34#8, 0x35#8, 0x36#8, 0x37#8, 0x38#8, 0x39#8] ++
    [0x41#8, 0x42#8, 0x43#8, 0x44#8, 0x45#8, 0x46#8]

/-- The two uppercase digits of a byte, the high nibble first (R14). -/
def twoDigits (b : Byte) : List Byte := [upperDigits.getD (b.toNat / 16) 0, upperDigits.getD (b.toNat % 16) 0]

/-- The eight uppercase digits of a word, the most significant first (R14). -/
def eightDigits (w : Word) : List Byte := (List.range 8).map fun j => upperDigits.getD (w.toNat / 16 ^ (7 - j) % 16) 0

/-- The conditions of R94 by which a word is no command. -/
def IllegalWord (w : Word) : Prop :=
  let opc := w.toNat % 0x100
  opc = 0x00 ∨ (0x13 ≤ opc ∧ opc ≤ 0x17) ∨ (0x19 ≤ opc ∧ opc ≤ 0x1F) ∨ (0x25 ≤ opc ∧ opc ≤ 0x2F) ∨
    (0x35 ≤ opc ∧ opc ≤ 0x3F) ∨ (0x45 ≤ opc ∧ opc ≤ 0xFF) ∨ w.toNat / 0x400 ≠ 0 ∨
    (w.toNat / 0x100 % 4 ≠ 0 ∧ opc ≠ 0x40)

/-- A dump line for the bytes `bs` from buffer index `a`: "0x", the index in eight digits, a space, sixteen entries joined by
spaces (two spaces for a missing byte), a space, the bytes as text, and LF (R171, R175). -/
def lineOf (a : Nat) (bs : List Byte) : List Byte :=
  [0x30#8, 0x78#8] ++ eightDigits (BitVec.ofNat 32 a) ++ [0x20#8] ++
    List.intercalate [0x20#8]
      ((List.range 16).map fun j => match bs[j]? with | some b => twoDigits b | none => [0x20#8, 0x20#8]) ++
    [0x20#8] ++ bs.map (fun b => if 0x20#8 ≤ b ∧ b ≤ 0x7E#8 then b else 0x2E#8) ++ [0x0A#8]

/-- The character code `c` is the hex digit of value `v`, uppercase or lowercase (R121). -/
def IsHexDigit (c v : Nat) : Prop :=
  (v < 10 ∧ c = 0x30 + v) ∨ (10 ≤ v ∧ v < 16 ∧ (c = 0x41 + (v - 10) ∨ c = 0x61 + (v - 10)))

/-- One byte of CRC-16: eight turns of R250's loop on the register with the byte in its low bits. -/
def crcByte (crc : Word) (b : Byte) : Word :=
  (fun c : Word => if c.getLsbD 0 then (c >>> 1) ^^^ 0x0000A001#32 else c >>> 1)^[8] (crc ^^^ b.setWidth 32)

/-- The number an additive sum finalizes to: the sum itself up to 255 in signed terms, else 256 less its low byte (R230). -/
def additiveResult (sum : Word) : DWord :=
  if sum.toInt ≤ 255 then sum.setWidth 64 else BitVec.ofNat 64 (256 - sum.toNat % 256)

/-- The widths R62 admits at offset `o` of the window. -/
def AdmittedAccess (o width : Nat) : Prop :=
  (o < 0x1000 ∧ width = 32 ∧ o % 4 = 0) ∨
  (((0x10000 ≤ o ∧ o < 0x20000) ∨ 0x80000 ≤ o) ∧ width = 8) ∨
  (((0x1000 ≤ o ∧ o < 0x10000) ∨ (0x20000 ≤ o ∧ o < 0x80000)) ∧ (width = 8 ∨ (width = 32 ∧ o % 4 = 0)))

/-- The offsets that read 0 and ignore writes (R35, R61). -/
def ReservedOffset (c : Config) (o : Nat) : Prop :=
  (0x03C ≤ o ∧ o < 0x10000) ∨ (0x10000 + c.bufCap ≤ o ∧ o < 0x20000) ∨ (0x20000 ≤ o ∧ o < 0x80000) ∨
    (0x80000 + c.txtCap ≤ o ∧ o < 0x100000)

/-- The state with a value added to what the host has read. -/
def hostSaw (addr : Nat) (v : Word) (s : State) : State :=
  { s with host := { s.host with seen := (addr, v) :: s.host.seen } }

/-- `o` is the next state of a run that goes on. -/
def Runs (o : Host.Outcome State Fault Refusal) : Prop := ∃ t, o = .next t

end Sys2Proof.Machine
end

