-- ==== Sys2Proof/Certificates/Slice0/Obligations.lean ====
section
/-! DEFINITION. The statements for the provers, family by family. The first part holds the shapes that several statements
share. A statement about every state is one about every BUF_CAP, TXT_CAP and DEV_BASE too, since State carries them. -/

namespace Sys2Proof.Machine

/-- UNPACK of `n` bytes (R122 to R124). -/
def UnpackMeans (i : Instr) (w : Word) (n : Nat) : Prop :=
  decode w = .ok i ∧ ∀ s : State,
    (s.off.toInt < 0 → exec i s = .next (failed 0x05#8 1 s)) ∧
    (0 ≤ s.off.toInt → (s.dlen.toNat : Int) < s.off.toInt + n →
      exec i s = .next (failed 0x06#8 (BitVec.ofInt 32 (s.off.toInt + n)) s)) ∧
    ∀ bs : List Byte, 0 ≤ s.off.toInt → s.off.toInt + n ≤ s.dlen.toNat → bs.length = n →
      CellsHold s.dbuf s.off.toInt.toNat bs →
      exec i s = .next (completed { s with res := BitVec.ofNat 64 (bigEndian bs) })

/-- What the grow rule leaves for `n` bytes of VAL at index `o` (R68): the bytes of VAL, the most significant first; zeros in the
gap from the old length up to `o`; every other cell as before. -/
def GrowWritten (s : State) (o n : Nat) (m : Memory) : Prop :=
  ∀ k, readCell m k =
    if o ≤ k ∧ k < o + n then some ((s.val >>> (8 * (n - 1 - (k - o)))).setWidth 8)
    else if s.dlen.toNat ≤ k ∧ k < o then some 0
    else readCell s.dbuf k

/-- PACK of `n` bytes (R125 to R127). -/
def PackMeans (i : Instr) (w : Word) (n : Nat) : Prop :=
  decode w = .ok i ∧ ∀ s : State,
    (s.off.toInt < 0 → exec i s = .next (failed 0x05#8 1 s)) ∧
    (0 ≤ s.off.toInt → (s.cfg.bufCap : Int) < s.off.toInt + n →
      exec i s = .next (failed 0x07#8 (BitVec.ofInt 32 (s.off.toInt + n)) s)) ∧
    (0 ≤ s.off.toInt → s.off.toInt + n ≤ s.cfg.bufCap →
      ∃ m, exec i s = .next (completed { s with
          dbuf := m
          dlen := if s.dlen.toNat < s.off.toInt.toNat + n then BitVec.ofNat 32 (s.off.toInt.toNat + n) else s.dlen }) ∧
        GrowWritten s s.off.toInt.toNat n m)

/-- APPEND of `n` bytes (R128 to R130). -/
def AppendMeans (i : Instr) (w : Word) (n : Nat) : Prop :=
  decode w = .ok i ∧ ∀ s : State,
    (s.cfg.bufCap < s.dlen.toNat + n → exec i s = .next (failed 0x07#8 (BitVec.ofNat 32 (s.dlen.toNat + n)) s)) ∧
    (s.dlen.toNat + n ≤ s.cfg.bufCap →
      ∃ m, exec i s = .next (completed { s with dbuf := m, dlen := BitVec.ofNat 32 (s.dlen.toNat + n) }) ∧
        GrowWritten s s.dlen.toNat n m)

/-- The errors of every command that reads a clamped DBUF range (R69): a negative OFF, then a negative LEN. -/
def RangeErrors (i : Instr) : Prop :=
  ∀ s : State,
    (s.off.toInt < 0 → exec i s = .next (failed 0x05#8 1 s)) ∧
    (0 ≤ s.off.toInt → s.len.toInt < 0 → exec i s = .next (failed 0x05#8 2 s))

/-- An encoder that writes the text `text o bs` for the bytes `bs` from index `o` (R170, R172 to R174). -/
def EncoderMeans (i : Instr) (w : Word) (text : Nat → List Byte → List Byte) : Prop :=
  decode w = .ok i ∧ RangeErrors i ∧ ∀ (s : State) (bs : List Byte), RangeHolds s bs →
    (s.cfg.txtCap < (text s.off.toInt.toNat bs).length →
      exec i s = .next (failed 0x07#8 (BitVec.ofNat 32 (text s.off.toInt.toNat bs).length) s)) ∧
    ((text s.off.toInt.toNat bs).length ≤ s.cfg.txtCap →
      ∃ m, exec i s = .next (completed { s with
          tbuf := m
          tlen := BitVec.ofNat 32 (text s.off.toInt.toNat bs).length }) ∧
        CellsHold m 0 (text s.off.toInt.toNat bs) ∧
        ∀ k, (text s.off.toInt.toNat bs).length ≤ k → readCell m k = readCell s.tbuf k)

/-- A command that, for a clamped range holding `bs`, makes the writes `f s bs` and raises nothing (R213, R215 and their like
for the other checksums). -/
def RangeCommandMeans (i : Instr) (w : Word) (f : State → List Byte → State) : Prop :=
  decode w = .ok i ∧ RangeErrors i ∧ ∀ (s : State) (bs : List Byte), RangeHolds s bs →
    exec i s = .next (completed (f s bs))

/-- A command that makes the writes `f s` whatever the state is. -/
def PlainCommandMeans (i : Instr) (w : Word) (f : State → State) : Prop :=
  decode w = .ok i ∧ ∀ s : State, exec i s = .next (completed (f s))

/-- A PACK of `n` bytes leaves bytes at OFF that denote the low bytes of VAL, and an UNPACK of `n` bytes at the same OFF gives
them back (R137). -/
def PackUnpackRoundTrip (p u : Instr) (n : Nat) : Prop :=
  ∀ s : State, 0 ≤ s.off.toInt → s.off.toInt + n ≤ s.cfg.bufCap →
    ∃ t bs, exec p s = .next t ∧ bs.length = n ∧ CellsHold t.dbuf s.off.toInt.toNat bs ∧
      bigEndian bs = s.val.toNat % 256 ^ n ∧
      exec u t = .next (completed { t with res := BitVec.ofNat 64 (s.val.toNat % 256 ^ n) })

/-- An APPEND of `n` bytes to the empty buffer does the same at index 0, and an UNPACK of `n` bytes at OFF 0 gives the low bytes
of VAL back (R137). -/
def AppendUnpackRoundTrip (a u : Instr) (n : Nat) : Prop :=
  ∀ s : State, s.dlen = 0 → n ≤ s.cfg.bufCap →
    ∃ t bs, exec a s = .next t ∧ bs.length = n ∧ CellsHold t.dbuf 0 bs ∧ bigEndian bs = s.val.toNat % 256 ^ n ∧
      exec u { t with off := 0 } =
        .next (completed { t with off := 0, res := BitVec.ofNat 64 (s.val.toNat % 256 ^ n) })

/-- A FLIP of width `w` on the RES of a FLIP of width `w` gives the low bits of the first VAL back (R138). -/
def FlipInvolutive (i : Instr) (w : Nat) : Prop :=
  ∀ s : State, ∃ t, exec i s = .next t ∧
    ∃ u, exec i { t with val := t.res } = .next u ∧ u.res = (s.val.setWidth w).setWidth 64

/-- An update over two adjoining ranges leaves the accumulators as one update over both does (R216, R237, R260). -/
def StreamingIsBatch (i : Instr) : Prop :=
  ∀ (s : State) (a b : Word), 0 ≤ s.off.toInt → 0 ≤ a.toInt → 0 ≤ b.toInt → s.off.toInt + a.toInt + b.toInt ≤ s.dlen.toNat →
    s.off.toInt + a.toInt + b.toInt < 2 ^ 31 →
    ∀ t u, exec i { s with len := a } = .next t → exec i { t with off := s.off + a, len := b } = .next u →
      ∃ v, exec i { s with len := a + b } = .next v ∧
        v.bccAcc = u.bccAcc ∧ v.addAcc = u.addAcc ∧ v.crcAcc = u.crcAcc

/-- The result of an update does not depend on the order of the range's bytes (R216, R237). -/
def OrderDoesNotMatter (i : Instr) : Prop :=
  ∀ (s : State) (m : Memory) (as bs : List Byte), RangeHolds s as → RangeHolds { s with dbuf := m } bs → as.Perm bs →
    ∃ t u, exec i s = .next t ∧ exec i { s with dbuf := m } = .next u ∧ t.bccAcc = u.bccAcc ∧ t.addAcc = u.addAcc

/-- FINB over a range gives the RES of UPD over it followed by FIN, and keeps the accumulators (R216, R237, R260). -/
def FinalizeOfCopy (upd fin finb : Instr) : Prop :=
  ∀ (s : State) (bs : List Byte), RangeHolds s bs →
    ∃ t u v, exec upd s = .next t ∧ exec fin t = .next u ∧ exec finb s = .next v ∧
      v = completed { s with res := u.res }

end Sys2Proof.Machine

open Sys2Proof Sys2Proof.Machine

/-! ## The command word -/

/-- R90, R93: the decoder and the encoder are inverse to each other on every word and every command, MODE of CRC_INIT at each
of its four values; so no bit of the word is dropped. -/
def Obligations.DecodeInvertsEncodeExactly : Prop :=
  ∀ (w : Word) (i : Instr), decode w = .ok i ↔ w = encode i

/-- R94: the words the decoder rejects are the illegal ones, and the command engine answers one with ILLEGAL_COMMAND and the
word, changing nothing else. -/
def Obligations.IllegalWordRaisesIllegalCommand : Prop :=
  ∀ w : Word, (IllegalWord w ↔ ∃ r, decode w = .error r) ∧
    ∀ s : State, IllegalWord w → s.pending = some ⟨w, 0⟩ → step s = .next (failed 0x01#8 w s)

/-- R93: words of the opcode map, written out bit by bit, decode to their commands. -/
def Obligations.MapWordsDecode : Prop :=
  decode 0b00000000000000000000000000000001#32 = .ok .unpack16 ∧
  decode 0b00000000000000000000000000000110#32 = .ok .pack64 ∧
  decode 0b00000000000000000000000000001111#32 = .ok .hexchar ∧
  decode 0b00000000000000000000000000010010#32 = .ok .hexdump ∧
  decode 0b00000000000000000000000000011000#32 = .ok .hexdec ∧
  decode 0b00000000000000000000000000100100#32 = .ok .bccFinb ∧
  decode 0b00000000000000000000000000110011#32 = .ok .addFin ∧
  decode 0b00000000000000000000000101000000#32 = .ok (.crcInit 0b01#2) ∧
  decode 0b00000000000000000000001001000000#32 = .ok (.crcInit 0b10#2) ∧
  decode 0b00000000000000000000000001000100#32 = .ok .crcFinb

/-! ## The step, the command's life, errors and reset -/

/-- R290 and log entry 3: a pending word whose time has come runs as the command it decodes to; before that the host acts and
the time left falls by one; with nothing pending the host acts. The word of `withFetchWord` is pending with its time come. -/
def Obligations.StepRunsDecodedCommand : Prop :=
  (∀ (s : State) (w : Word) (i : Instr), s.pending = some ⟨w, 0⟩ → decode w = .ok i → step s = exec i s) ∧
  (∀ (s : State) (w : Word) (k : Nat), s.pending = some ⟨w, k + 1⟩ →
    step s = hostStep { s with pending := some ⟨w, k⟩ }) ∧
  (∀ s : State, s.pending = none → step s = hostStep s) ∧
  ∀ (s : State) (w : Word) (i : Instr), decode w = .ok i →
    step (s.withFetchWord 32 w.toNat) = exec i (s.withFetchWord 32 w.toNat)

/-- R22, R290: a host write to CMD of the idle device stores the word, clears the error report, sets BUSY and makes the word
pending. How long it stays pending is the free value of log entry 3. -/
def Obligations.CmdWriteStartsCommand : Prop :=
  ∀ (s : State) (w : Word), s.status.getLsbD 0 = false →
    hostWrite s.cfg.devBase 32 w s = .next { s with
      cmd := w
      status := 0x00000001#32
      errInfo := 0
      pending := some ⟨w, Config.latency s.draws⟩
      draws := s.draws + 1 }

/-- R329 (fairness): when the host has no action left, a pending command completes, after one step more than the host actions
drawn for it. -/
def Obligations.PendingCommandCompletes : Prop :=
  ∀ (s : State) (w : Word) (k : Nat) (i : Instr), s.pending = some ⟨w, k⟩ → s.host.prog.length ≤ s.host.pc →
    decode w = .ok i → Sys2Proof.core.run (k + 1) s = exec i { s with pending := some ⟨w, 0⟩ }

/-- The invariant is kept by every step: canonical buffers within their capacity, legal DLEN, TLEN and CRC_MODE, reserved bits
of STATUS zero, ERR and ERRCODE in step, BUSY just while a command is pending. -/
def Obligations.StepKeepsInvariant : Prop := ∀ s t : State, Inv s → step s = .next t → Inv t

/-- The invariant holds after reset, whatever the legal parameters are. -/
def Obligations.InvariantHoldsAfterReset : Prop := ∀ c : Config, c.Legal → Inv (State.resetWith c)

/-- R320: RST abandons the pending command, gives every register its reset value (R21), and clears every written bit. -/
def Obligations.ResetGivesResetValues : Prop :=
  ∀ s : State, ∃ t, hostAction .reset s = .next t ∧ t.pending = none ∧
    t.cmd = 0 ∧ t.status = 0 ∧ t.off = 0 ∧ t.len = 0 ∧ t.val = 0 ∧ t.res = 0 ∧ t.dlen = 0 ∧ t.tlen = 0 ∧
    t.bccAcc = 0 ∧ t.addAcc = 0 ∧ t.crcAcc = 0 ∧ t.errInfo = 0 ∧ t.crcMode = 0x00000001#32 ∧
    ∀ i, readCell t.dbuf i = none ∧ readCell t.tbuf i = none

/-- R291: a command that ends with ERR set has changed nothing but STATUS and ERRINFO; `pending` becomes none, as it does at the
end of every command. -/
def Obligations.ErrorLeavesNoPartialState : Prop :=
  ∀ (w : Word) (s t : State), s.status = 0x00000001#32 → runCommand w s = .next t → t.status.getLsbD 1 = true →
    t = { s with status := t.status, errInfo := t.errInfo, pending := none }

/-- R24, R25, R26: no command writes OFF, LEN or VAL; nor CMD, the parameters, or anything of the host's. -/
def Obligations.CommandsKeepOperands : Prop :=
  ∀ (i : Instr) (s t : State), exec i s = .next t →
    t.off = s.off ∧ t.len = s.len ∧ t.val = s.val ∧ t.cmd = s.cmd ∧ t.cfg = s.cfg ∧ t.host = s.host ∧ t.draws = s.draws

/-- R66 and the frames of every family: DBUF and DLEN change only in PACK, APPEND and HEXDEC, TBUF and TLEN only in the
encoders, RES only in the commands R27 names, and each accumulator only in its own INIT, UPDB and UPD. -/
def Obligations.CommandsWriteOnlyTheirState : Prop :=
  ∀ (i : Instr) (s t : State), exec i s = .next t →
    (i ∉ ([.pack16, .pack32, .pack64, .append16, .append32, .append64, .hexdec] : List Instr) →
      t.dbuf = s.dbuf ∧ t.dlen = s.dlen) ∧
    (i ∉ ([.hexenc, .hexencsp, .hexdump] : List Instr) → t.tbuf = s.tbuf ∧ t.tlen = s.tlen) ∧
    (i ∉ ([.unpack16, .unpack32, .unpack64, .flip8, .flip16, .flip32, .flip64, .byte2u, .hexchar, .bccFin, .bccFinb, .addFin,
      .addFinb, .crcFin, .crcFinb] : List Instr) → t.res = s.res) ∧
    (i ∉ ([.bccInit, .bccUpdb, .bccUpd] : List Instr) → t.bccAcc = s.bccAcc) ∧
    (i ∉ ([.addInit, .addUpdb, .addUpd] : List Instr) → t.addAcc = s.addAcc) ∧
    (i ∉ ([.crcInit 0, .crcInit 1, .crcInit 2, .crcInit 3, .crcUpdb, .crcUpd] : List Instr) → t.crcAcc = s.crcAcc)

/-- R33, R326: in any step, CRC_MODE changes only when a CRC_INIT completes or the host pulses RST. -/
def Obligations.OnlyCrcInitChangesCrcMode : Prop :=
  ∀ s t : State, step s = .next t → t.crcMode ≠ s.crcMode →
    (∃ mode, s.pending = some ⟨encode (.crcInit mode), 0⟩) ∨ s.host.prog[s.host.pc]? = some .reset

/-- R67, R290: while a command waits for its completion, no host action but RST changes anything of the device but the time left,
so the command runs on the registers and buffers its CMD write left. That each step takes one off the time left is the model's
choice (log entry 3). -/
def Obligations.BusyDeviceKeepsItsState : Prop :=
  ∀ (s t : State) (w : Word) (k : Nat), s.pending = some ⟨w, k + 1⟩ → s.status.getLsbD 0 = true →
    s.host.prog[s.host.pc]? ≠ some .reset → step s = .next t →
    t = { s with pending := some ⟨w, k⟩, host := t.host, draws := t.draws }

/-- R97, R323, R329: the host program `exec` (a CMD write, then a poll of STATUS until BUSY = 0) runs to its end whatever the
time to completion is, and leaves the device as the command leaves it. -/
def Obligations.HostExecReturnsTheCommandsEffect : Prop :=
  ∀ (s t : State) (w : Word) (l : Nat), s.status.getLsbD 0 = false → s.pending = none → s.host.failed = false →
    s.host.prog = asmExec s.cfg w l → s.host.pc = 0 → runCommand w (startCommand w 0 s) = .next t →
    ∃ n u, Sys2Proof.core.run n s = .next u ∧ u.host.pc = 4 ∧ u.host.failed = false ∧
      u = { t with host := u.host, draws := u.draws }

/-- R39: a command that reads a cell nothing has written stops with UnwrittenRead: an unpack, a range command, and HEXDEC when
the characters before the cell are hex digits. -/
def Obligations.UnwrittenReadStops : Prop :=
  (∀ p ∈ ([(.unpack16, 2), (.unpack32, 4), (.unpack64, 8)] : List (Instr × Nat)), ∀ (s : State) (k : Nat),
    0 ≤ s.off.toInt → s.off.toInt + p.2 ≤ s.dlen.toNat → s.off.toInt ≤ k → (k : Int) < s.off.toInt + p.2 →
    readCell s.dbuf k = none → exec p.1 s = .fault .unwrittenRead) ∧
  (∀ i ∈ ([.hexenc, .hexencsp, .hexdump, .bccUpd, .bccFinb, .addUpd, .addFinb, .crcUpd, .crcFinb] : List Instr),
    ∀ (s : State) (k : Nat), 0 ≤ s.off.toInt → 0 ≤ s.len.toInt → s.off.toInt ≤ k →
    (k : Int) < min (s.off.toInt + s.len.toInt) s.dlen.toNat →
    readCell s.dbuf k = none → exec i s = .fault .unwrittenRead) ∧
  ∀ (s : State) (m : Int) (cs : List Byte), m = min (s.off.toInt + s.len.toInt) s.tlen.toNat - s.off.toInt →
    0 ≤ s.off.toInt → 0 < m → m % 2 = 0 → m / 2 ≤ s.cfg.bufCap → (cs.length : Int) < m →
    CellsHold s.tbuf s.off.toInt.toNat cs → (∀ c ∈ cs, ∃ v, IsHexDigit c.toNat v) →
    readCell s.tbuf (s.off.toInt.toNat + cs.length) = none → exec .hexdec s = .fault .unwrittenRead

/-! ## The host's accesses -/

/-- R21, R26, R27: what the host reads from each register of the idle device. -/
def Obligations.HostReadsRegisters : Prop :=
  ∀ s : State, s.status.getLsbD 0 = false →
    ∀ p ∈ ([(0x000, s.cmd), (0x004, s.status), (0x008, s.off), (0x00C, s.len), (0x010, s.val.setWidth 32),
        (0x014, (s.val >>> 32).setWidth 32), (0x018, s.res.setWidth 32), (0x01C, (s.res >>> 32).setWidth 32),
        (0x020, s.dlen), (0x024, s.tlen), (0x028, s.bccAcc), (0x02C, s.addAcc), (0x030, s.crcAcc),
        (0x034, s.crcMode), (0x038, s.errInfo)] : List (Nat × Word)),
      hostRead (s.cfg.devBase + p.1) 32 s = .next (hostSaw (s.cfg.devBase + p.1) p.2 s)

/-- R24, R25, R26, R28, R29, R21: what a host write to each register of the idle device stores; DLEN and TLEN take the nearest
legal value, and a read-only register takes nothing. -/
def Obligations.HostWritesRegisters : Prop :=
  ∀ (s : State) (w : Word), s.status.getLsbD 0 = false →
    hostWrite (s.cfg.devBase + 0x008) 32 w s = .next { s with off := w } ∧
    hostWrite (s.cfg.devBase + 0x00C) 32 w s = .next { s with len := w } ∧
    hostWrite (s.cfg.devBase + 0x010) 32 w s = .next { s with val := (s.val >>> 32).setWidth 32 ++ w } ∧
    hostWrite (s.cfg.devBase + 0x014) 32 w s = .next { s with val := w ++ s.val.setWidth 32 } ∧
    hostWrite (s.cfg.devBase + 0x020) 32 w s = .next { s with dlen := BitVec.ofNat 32 (min w.toNat s.cfg.bufCap) } ∧
    hostWrite (s.cfg.devBase + 0x024) 32 w s = .next { s with tlen := BitVec.ofNat 32 (min w.toNat s.cfg.txtCap) } ∧
    ∀ o ∈ ([0x004, 0x018, 0x01C, 0x028, 0x02C, 0x030, 0x034, 0x038] : List Nat),
      hostWrite (s.cfg.devBase + o) 32 w s = .next s

/-- R61, R36, R37, R39: the buffer cells in their windows. A write reaches its cell and no other; a read returns the cell, and
stops where nothing has written it. That a write moves the low byte of its data and a read is recorded zero-extended is the
model's choice (log entry 15). -/
def Obligations.HostReachesBufferCells : Prop :=
  ∀ (s : State) (w : Word) (i : Nat), s.status.getLsbD 0 = false → s.cfg.Legal →
    (i < s.cfg.bufCap →
      (∃ m, hostWrite (s.cfg.devBase + 0x10000 + i) 8 w s = .next { s with dbuf := m } ∧
        ∀ k, readCell m k = if k = i then some (w.setWidth 8) else readCell s.dbuf k) ∧
      (∀ b, readCell s.dbuf i = some b →
        hostRead (s.cfg.devBase + 0x10000 + i) 8 s = .next (hostSaw (s.cfg.devBase + 0x10000 + i) (b.setWidth 32) s)) ∧
      (readCell s.dbuf i = none → hostRead (s.cfg.devBase + 0x10000 + i) 8 s = .fault .unwrittenRead)) ∧
    (i < s.cfg.txtCap →
      (∃ m, hostWrite (s.cfg.devBase + 0x80000 + i) 8 w s = .next { s with tbuf := m } ∧
        ∀ k, readCell m k = if k = i then some (w.setWidth 8) else readCell s.tbuf k) ∧
      (∀ b, readCell s.tbuf i = some b →
        hostRead (s.cfg.devBase + 0x80000 + i) 8 s = .next (hostSaw (s.cfg.devBase + 0x80000 + i) (b.setWidth 32) s)) ∧
      (readCell s.tbuf i = none → hostRead (s.cfg.devBase + 0x80000 + i) 8 s = .fault .unwrittenRead))

/-- R35, R61: the reserved offsets of the idle device read 0 and ignore writes, by every access R62 admits there. -/
def Obligations.ReservedOffsetsReadZero : Prop :=
  ∀ (s : State) (w : Word) (o width : Nat), s.status.getLsbD 0 = false → s.cfg.Legal → ReservedOffset s.cfg o →
    AdmittedAccess o width →
    hostWrite (s.cfg.devBase + o) width w s = .next s ∧
    hostRead (s.cfg.devBase + o) width s = .next (hostSaw (s.cfg.devBase + o) 0 s)

/-- R62: an access of a width or alignment that R62 does not admit is refused. Two points are the model's: that R62 admits 8
bits alone beyond BUF_CAP and TXT_CAP too (log entry 7, DEDUCED), and that it is checked before BUSY is (log entry 9,
DEDUCED). -/
def Obligations.UnadmittedAccessIsRefused : Prop :=
  ∀ (s : State) (w : Word) (o width : Nat), o < 0x100000 → ¬ AdmittedAccess o width →
    hostWrite (s.cfg.devBase + o) width w s = .refused .hostAccess ∧
    hostRead (s.cfg.devBase + o) width s = .refused .hostAccess

/-- R324: a host write anywhere in the window while BUSY = 1 is the fault HostHazard, whatever it would have reached. Which
accesses are admitted beyond BUF_CAP and TXT_CAP is log entry 7 (DEDUCED). -/
def Obligations.BusyWriteIsHostHazard : Prop :=
  ∀ (s : State) (w : Word) (o width : Nat), s.status.getLsbD 0 = true → o < 0x100000 → AdmittedAccess o width →
    hostWrite (s.cfg.devBase + o) width w s = .fault .hostHazard

/-- R323: while BUSY = 1 a host read of STATUS returns STATUS, and any other read returns a fresh free value (log entry 4) and
leaves the device alone. That it does so at a cell nothing has written too, where R39 names a fault and the spec ranks neither
rule, is the model's choice (log entry 19); which accesses are admitted beyond BUF_CAP and TXT_CAP is log entry 7. -/
def Obligations.BusyReadIsADraw : Prop :=
  ∀ (s : State) (o width : Nat), s.status.getLsbD 0 = true → o < 0x100000 → AdmittedAccess o width →
    (o = 0x004 → hostRead (s.cfg.devBase + o) width s = .next (hostSaw (s.cfg.devBase + o) s.status s)) ∧
    (o ≠ 0x004 → hostRead (s.cfg.devBase + o) width s =
      .next (hostSaw (s.cfg.devBase + o) (Config.busyRead s.draws &&& BitVec.ofNat 32 (2 ^ width - 1))
        { s with draws := s.draws + 1 }))

/-- R70: no host read changes anything but what the host has seen and the counter of draws. -/
def Obligations.HostReadsHaveNoSideEffect : Prop :=
  ∀ (s t : State) (addr width : Nat), hostRead addr width s = .next t →
    t = { s with host := { s.host with seen := t.host.seen }, draws := t.draws }

/-! ## byte_packer -/

/-- R122, R123, R124: UNPACK16, UNPACK32 and UNPACK64. -/
def Obligations.UnpackReadsBigEndian : Prop :=
  UnpackMeans .unpack16 0x00000001#32 2 ∧ UnpackMeans .unpack32 0x00000002#32 4 ∧ UnpackMeans .unpack64 0x00000003#32 8

/-- R125, R126, R127, with the grow rule R68: PACK16, PACK32 and PACK64. -/
def Obligations.PackWritesBigEndianAndGrows : Prop :=
  PackMeans .pack16 0x00000004#32 2 ∧ PackMeans .pack32 0x00000005#32 4 ∧ PackMeans .pack64 0x00000006#32 8

/-- R128, R129, R130: APPEND16, APPEND32 and APPEND64. -/
def Obligations.AppendExtendsTheBuffer : Prop :=
  AppendMeans .append16 0x00000007#32 2 ∧ AppendMeans .append32 0x00000008#32 4 ∧ AppendMeans .append64 0x00000009#32 8

/-- R131 to R134: the flips swap the halves of the low 8, 16, 32 or 64 bits of VAL, in numbers: the low half times the half's
range, plus the high half. -/
def Obligations.FlipSwapsHalves : Prop :=
  PlainCommandMeans .flip8 0x0000000A#32
    (fun s => { s with res := BitVec.ofNat 64 (s.val.toNat % 2 ^ 4 * 2 ^ 4 + s.val.toNat / 2 ^ 4 % 2 ^ 4) }) ∧
  PlainCommandMeans .flip16 0x0000000B#32
    (fun s => { s with res := BitVec.ofNat 64 (s.val.toNat % 2 ^ 8 * 2 ^ 8 + s.val.toNat / 2 ^ 8 % 2 ^ 8) }) ∧
  PlainCommandMeans .flip32 0x0000000C#32
    (fun s => { s with res := BitVec.ofNat 64 (s.val.toNat % 2 ^ 16 * 2 ^ 16 + s.val.toNat / 2 ^ 16 % 2 ^ 16) }) ∧
  PlainCommandMeans .flip64 0x0000000D#32
    (fun s => { s with res := BitVec.ofNat 64 (s.val.toNat % 2 ^ 32 * 2 ^ 32 + s.val.toNat / 2 ^ 32 % 2 ^ 32) })

/-- R135: BYTE2U. -/
def Obligations.Byte2uWidensTheLowByte : Prop :=
  PlainCommandMeans .byte2u 0x0000000E#32 (fun s => { s with res := BitVec.ofNat 64 (s.val.toNat % 256) })

/-- R121, R136: HEXCHAR on the 16-bit code in VAL. -/
def Obligations.HexcharParsesADigit : Prop :=
  decode 0x0000000F#32 = .ok .hexchar ∧ ∀ s : State,
    (∀ v, IsHexDigit (s.val.toNat % 65536) v →
      exec .hexchar s = .next (completed { s with res := BitVec.ofNat 64 v })) ∧
    ((¬ ∃ v, IsHexDigit (s.val.toNat % 65536) v) →
      exec .hexchar s = .next (failed 0x02#8 (BitVec.ofNat 32 (s.val.toNat % 65536)) s))

/-- R137: the packer round trip, at any offset, and for APPEND at the empty buffer. -/
def Obligations.PackThenUnpackReturnsTheValue : Prop :=
  (PackUnpackRoundTrip .pack16 .unpack16 2 ∧ PackUnpackRoundTrip .pack32 .unpack32 4 ∧
    PackUnpackRoundTrip .pack64 .unpack64 8) ∧
  AppendUnpackRoundTrip .append16 .unpack16 2 ∧ AppendUnpackRoundTrip .append32 .unpack32 4 ∧
    AppendUnpackRoundTrip .append64 .unpack64 8

/-- R138: the flips are involutions. -/
def Obligations.FlipIsAnInvolution : Prop :=
  FlipInvolutive .flip8 8 ∧ FlipInvolutive .flip16 16 ∧ FlipInvolutive .flip32 32 ∧ FlipInvolutive .flip64 64

/-! ## hex_encoder and hex_decoder -/

/-- R172: HEXENC. -/
def Obligations.HexencWritesTwoDigitsPerByte : Prop :=
  EncoderMeans .hexenc 0x00000010#32 (fun _ bs => bs.flatMap twoDigits)

/-- R173: HEXENCSP. -/
def Obligations.HexencspJoinsWithSpaces : Prop :=
  EncoderMeans .hexencsp 0x00000011#32 (fun _ bs => List.intercalate [0x20#8] (bs.map twoDigits))

/-- R174, R175: HEXDUMP, a line for every sixteen bytes from the start of the range. -/
def Obligations.HexdumpWritesTheLines : Prop :=
  EncoderMeans .hexdump 0x00000012#32 (fun o bs =>
    (List.range ((bs.length + 15) / 16)).flatMap fun l => lineOf (o + 16 * l) ((bs.drop (16 * l)).take 16))

/-- R175: a line of `k` bytes has `60 + k` characters, and its gutter starts at character 59. -/
def Obligations.DumpGutterIsAligned : Prop :=
  ∀ (a : Nat) (bs : List Byte), 1 ≤ bs.length → bs.length ≤ 16 →
    (dumpLine a bs).length = 60 + bs.length ∧
    ∀ j b, bs[j]? = some b → (dumpLine a bs)[59 + j]? = some (if 0x20#8 ≤ b ∧ b ≤ 0x7E#8 then b else 0x2E#8)

/-- R179: the lengths of the encoders' outputs for a clamped count `n`, and CAPACITY where one is over TXT_CAP. -/
def Obligations.EncoderOutputLengths : Prop :=
  ∀ (s : State) (bs : List Byte), s.cfg.Legal → RangeHolds s bs →
    ((2 * bs.length ≤ s.cfg.txtCap → ∃ t, exec .hexenc s = .next t ∧ t.tlen.toNat = 2 * bs.length) ∧
      (s.cfg.txtCap < 2 * bs.length → exec .hexenc s = .next (failed 0x07#8 (BitVec.ofNat 32 (2 * bs.length)) s))) ∧
    ((3 * bs.length - 1 ≤ s.cfg.txtCap → ∃ t, exec .hexencsp s = .next t ∧ t.tlen.toNat = 3 * bs.length - 1) ∧
      (s.cfg.txtCap < 3 * bs.length - 1 →
        exec .hexencsp s = .next (failed 0x07#8 (BitVec.ofNat 32 (3 * bs.length - 1)) s))) ∧
    ((60 * ((bs.length + 15) / 16) + bs.length ≤ s.cfg.txtCap →
        ∃ t, exec .hexdump s = .next t ∧ t.tlen.toNat = 60 * ((bs.length + 15) / 16) + bs.length) ∧
      (s.cfg.txtCap < 60 * ((bs.length + 15) / 16) + bs.length →
        exec .hexdump s = .next (failed 0x07#8 (BitVec.ofNat 32 (60 * ((bs.length + 15) / 16) + bs.length)) s)))

/-- R176, R177, R121: HEXDEC, its errors in order and its result. `m` is the usable length. -/
def Obligations.HexdecDecodesPairs : Prop :=
  decode 0x00000018#32 = .ok .hexdec ∧ ∀ (s : State) (m : Int),
    m = min (s.off.toInt + s.len.toInt) s.tlen.toNat - s.off.toInt →
    (s.off.toInt < 0 → exec .hexdec s = .next (failed 0x05#8 1 s)) ∧
    (0 ≤ s.off.toInt → (m ≤ 0 ∨ m % 2 = 1) → exec .hexdec s = .next (failed 0x03#8 (BitVec.ofInt 32 m) s)) ∧
    (0 ≤ s.off.toInt → 0 < m → m % 2 = 0 → s.cfg.bufCap < m / 2 →
      exec .hexdec s = .next (failed 0x07#8 (BitVec.ofInt 32 (m / 2)) s)) ∧
    (0 ≤ s.off.toInt → 0 < m → m % 2 = 0 → m / 2 ≤ s.cfg.bufCap →
      (∀ (cs : List Byte) (c : Byte), (cs.length : Int) < m → CellsHold s.tbuf s.off.toInt.toNat (cs ++ [c]) →
        (∀ d ∈ cs, ∃ v, IsHexDigit d.toNat v) → (¬ ∃ v, IsHexDigit c.toNat v) →
        exec .hexdec s = .next (failed 0x02#8 (BitVec.ofInt 32 (s.off.toInt + cs.length)) s)) ∧
      (∀ (cs : List Byte) (vs : List Nat), (cs.length : Int) = m → CellsHold s.tbuf s.off.toInt.toNat cs →
        List.Forall₂ (fun c v => IsHexDigit (BitVec.toNat c) v) cs vs →
        ∃ d, exec .hexdec s = .next (completed { s with dbuf := d, dlen := BitVec.ofInt 32 (m / 2) }) ∧
          ∀ k, readCell d k =
            if (k : Int) < m / 2 then some (BitVec.ofNat 8 (16 * vs.getD (2 * k) 0 + vs.getD (2 * k + 1) 0))
            else readCell s.dbuf k))

/-- R178: HEXENC of a non-empty buffer completes, and then HEXDEC of its whole text completes and gives the buffer back, whatever
stands in DBUF and DLEN by then; for the empty buffer HEXENC gives the empty string and HEXDEC raises INVALID_HEX_LENGTH(0). -/
def Obligations.HexRoundTrip : Prop :=
  ∀ (s : State) (bs : List Byte), s.cfg.Legal → s.dlen.toNat ≤ s.cfg.bufCap → s.off = 0 → s.len = s.dlen →
    bs.length = s.dlen.toNat → CellsHold s.dbuf 0 bs → 2 * bs.length ≤ s.cfg.txtCap →
    ∃ t, exec .hexenc s = .next t ∧
      t = completed { s with tbuf := t.tbuf, tlen := BitVec.ofNat 32 (2 * bs.length) } ∧
      ∀ (m : Memory) (d : Word),
        (bs ≠ [] → ∃ e,
          exec .hexdec { t with dbuf := m, dlen := d, len := BitVec.ofNat 32 (2 * bs.length) } =
            .next (completed { t with dbuf := e, dlen := s.dlen, len := BitVec.ofNat 32 (2 * bs.length) }) ∧
          CellsHold e 0 bs) ∧
        (bs = [] →
          exec .hexdec { t with dbuf := m, dlen := d, len := 0 } =
            .next (failed 0x03#8 0 { t with dbuf := m, dlen := d, len := 0 }))

/-! ## bcc_checksum -/

/-- R211, R212: BCC_INIT and BCC_UPDB. -/
def Obligations.BccInitAndByteUpdate : Prop :=
  PlainCommandMeans .bccInit 0x00000020#32 (fun s => { s with bccAcc := s.val.setWidth 32 }) ∧
  PlainCommandMeans .bccUpdb 0x00000021#32
    (fun s => { s with bccAcc := s.bccAcc ^^^ (s.val.setWidth 8).setWidth 32 })

/-- R210, R213: BCC_UPD. -/
def Obligations.BccRangeUpdateXorsTheBytes : Prop :=
  RangeCommandMeans .bccUpd 0x00000022#32
    (fun s bs => { s with bccAcc := bs.foldl (fun acc b => acc ^^^ b.setWidth 32) s.bccAcc })

/-- R214, R215: BCC_FIN and BCC_FINB. -/
def Obligations.BccFinalizeReadsTheAccumulator : Prop :=
  PlainCommandMeans .bccFin 0x00000023#32 (fun s => { s with res := s.bccAcc.setWidth 64 }) ∧
  RangeCommandMeans .bccFinb 0x00000024#32
    (fun s bs => { s with res := (bs.foldl (fun acc b => acc ^^^ b.setWidth 32) s.bccAcc).setWidth 64 })

/-- R210: an update changes only bits 7:0 of the accumulator. -/
def Obligations.BccKeepsTheUpperBits : Prop :=
  ∀ s t : State, exec .bccUpdb s = .next t ∨ exec .bccUpd s = .next t → t.bccAcc >>> 8 = s.bccAcc >>> 8

/-! ## additive_checksum -/

/-- R232, R233: ADD_INIT and ADD_UPDB. -/
def Obligations.AdditiveInitAndByteUpdate : Prop :=
  PlainCommandMeans .addInit 0x00000030#32 (fun s => { s with addAcc := s.val.setWidth 32 }) ∧
  PlainCommandMeans .addUpdb 0x00000031#32
    (fun s => { s with addAcc := BitVec.ofNat 32 (s.addAcc.toNat + s.val.toNat % 256) })

/-- R231, R234: ADD_UPD adds the bytes modulo 2^32. -/
def Obligations.AdditiveRangeUpdateAddsTheBytes : Prop :=
  RangeCommandMeans .addUpd 0x00000032#32
    (fun s bs => { s with addAcc := BitVec.ofNat 32 (s.addAcc.toNat + (bs.map BitVec.toNat).sum) })

/-- R230, R235, R236: ADD_FIN and ADD_FINB. -/
def Obligations.AdditiveFinalizeInvertsLargeSums : Prop :=
  PlainCommandMeans .addFin 0x00000033#32 (fun s => { s with res := additiveResult s.addAcc }) ∧
  RangeCommandMeans .addFinb 0x00000034#32
    (fun s bs => { s with res := additiveResult (BitVec.ofNat 32 (s.addAcc.toNat + (bs.map BitVec.toNat).sum)) })

/-! ## crc16_lfsr and crc16_rom -/

/-- R92, R255: CRC_INIT with each value of MODE. -/
def Obligations.CrcInitSelectsTheEngine : Prop :=
  decode 0x00000140#32 = .ok (.crcInit 0b01#2) ∧ decode 0x00000240#32 = .ok (.crcInit 0b10#2) ∧
  decode 0x00000040#32 = .ok (.crcInit 0b00#2) ∧ decode 0x00000340#32 = .ok (.crcInit 0b11#2) ∧
  ∀ s : State,
    exec (.crcInit 0b01#2) s = .next (completed { s with crcMode := 0x00000001#32, crcAcc := s.val.setWidth 32 }) ∧
    exec (.crcInit 0b10#2) s = .next (completed { s with crcMode := 0x00000002#32, crcAcc := s.val.setWidth 32 }) ∧
    exec (.crcInit 0b00#2) s = .next (failed 0x04#8 0 s) ∧
    exec (.crcInit 0b11#2) s = .next (failed 0x04#8 3 s)

/-- R256, with R253: CRC_UPDB in either mode. -/
def Obligations.CrcByteUpdateRunsOneStep : Prop :=
  decode 0x00000041#32 = .ok .crcUpdb ∧ ∀ s : State, s.crcMode = 0x00000001#32 ∨ s.crcMode = 0x00000002#32 →
    exec .crcUpdb s = .next (completed { s with crcAcc := crcByte s.crcAcc (s.val.setWidth 8) })

/-- R257, with R253: CRC_UPD in either mode. -/
def Obligations.CrcRangeUpdateFoldsTheBytes : Prop :=
  decode 0x00000042#32 = .ok .crcUpd ∧ RangeErrors .crcUpd ∧ ∀ (s : State) (bs : List Byte),
    s.crcMode = 0x00000001#32 ∨ s.crcMode = 0x00000002#32 → RangeHolds s bs →
    exec .crcUpd s = .next (completed { s with crcAcc := bs.foldl crcByte s.crcAcc })

/-- R258, R259, with R253: CRC_FIN and CRC_FINB. -/
def Obligations.CrcFinalizeReadsTheAccumulator : Prop :=
  PlainCommandMeans .crcFin 0x00000043#32 (fun s => { s with res := s.crcAcc.setWidth 64 }) ∧
  decode 0x00000044#32 = .ok .crcFinb ∧ RangeErrors .crcFinb ∧ ∀ (s : State) (bs : List Byte),
    s.crcMode = 0x00000001#32 ∨ s.crcMode = 0x00000002#32 → RangeHolds s bs →
    exec .crcFinb s = .next (completed { s with res := (bs.foldl crcByte s.crcAcc).setWidth 64 })

/-- R251: the listed ROM is the table R250 forces. -/
def Obligations.CrcRomHoldsTheShiftedBytes : Prop :=
  ∀ b : Byte, romEntry b = (crcByte 0 b).setWidth 16

/-- R253: the two engines agree on every register and byte. -/
def Obligations.CrcEnginesAgree : Prop := ∀ (crc : Word) (b : Byte), romStep crc b = lfsrStep crc b

/-- R260.1: two runs that differ only in the mode go on differing only in the mode, command by command. -/
def Obligations.CrcModeIsUnobservable : Prop :=
  ∀ (i : Instr) (s : State) (c : Word), (∀ mode, i ≠ .crcInit mode) →
    s.crcMode = 0x00000001#32 ∨ s.crcMode = 0x00000002#32 → c = 0x00000001#32 ∨ c = 0x00000002#32 →
    exec i { s with crcMode := c } =
      match exec i s with
      | .next t => .next { t with crcMode := c }
      | .fault f => .fault f
      | .refused r => .refused r

/-- R260.5, R32: a CRC register that fits 16 bits stays so, and so do the results read from it. -/
def Obligations.CrcStaysSixteenBits : Prop :=
  ∀ (i : Instr) (s t : State), exec i s = .next t → s.crcAcc.toNat ≤ 0xFFFF →
    (∀ mode, i = .crcInit mode → s.val.toNat % 2 ^ 32 ≤ 0xFFFF) →
    t.crcAcc.toNat ≤ 0xFFFF ∧ (t.status.getLsbD 1 = false → i = .crcFin ∨ i = .crcFinb → t.res.toNat ≤ 0xFFFF)

/-! ## The laws of the checksums -/

/-- R216.1, R237.1, R260.2: streaming equals batch. -/
def Obligations.StreamingEqualsBatch : Prop :=
  StreamingIsBatch .bccUpd ∧ StreamingIsBatch .addUpd ∧ StreamingIsBatch .crcUpd

/-- R216.2, R237.2, R260.3: finalize is idempotent, and leaves the accumulators. -/
def Obligations.FinalizeIsIdempotent : Prop :=
  ∀ i ∈ ([.bccFin, .addFin, .crcFin] : List Instr), ∀ s : State, ∃ t u, exec i s = .next t ∧ exec i t = .next u ∧
    u.res = t.res ∧ t.bccAcc = s.bccAcc ∧ t.addAcc = s.addAcc ∧ t.crcAcc = s.crcAcc ∧ t.crcMode = s.crcMode

/-- R216.4, R237.4: the order of the bytes does not matter to BCC and to the additive sum. -/
def Obligations.ByteOrderDoesNotMatter : Prop := OrderDoesNotMatter .bccUpd ∧ OrderDoesNotMatter .addUpd

/-- R216.3, R237.3, R260.4: FINB is the fold of a copy. -/
def Obligations.FinbIsTheFoldOfACopy : Prop :=
  FinalizeOfCopy .bccUpd .bccFin .bccFinb ∧ FinalizeOfCopy .addUpd .addFin .addFinb ∧
    FinalizeOfCopy .crcUpd .crcFin .crcFinb

/-- R41: INIT with a saved accumulator (and mode) restores it. -/
def Obligations.InitRestoresASavedAccumulator : Prop :=
  ∀ s t : State, (s.crcMode = 0x00000001#32 ∨ s.crcMode = 0x00000002#32) →
    (∃ u, exec .bccInit { t with val := s.bccAcc.setWidth 64 } = .next u ∧ u.bccAcc = s.bccAcc) ∧
    (∃ u, exec .addInit { t with val := s.addAcc.setWidth 64 } = .next u ∧ u.addAcc = s.addAcc) ∧
    (∃ u, exec (.crcInit (s.crcMode.setWidth 2)) { t with val := s.crcAcc.setWidth 64 } = .next u ∧
      u.crcAcc = s.crcAcc ∧ u.crcMode = s.crcMode)
end

