-- ==== Sys2Proof/Laws/Memory.lean ====
section
/-! SUPPORT. The laws of a buffer's cells: a read after a write, the canonical form and the capacity kept, and what a read or
a write of many cells does. -/

namespace Sys2Proof.Machine

/-- A write gives the cell its value and leaves every other cell alone. -/
theorem readCell_writeCell (m : Memory) (i : Nat) (v : Byte) (k : Nat) :
    readCell (writeCell m i v) k = if k = i then some v else readCell m k := by
  induction m with
  | nil => simp [writeCell, readCell, eq_comm]
  | cons c rest ih =>
    obtain ⟨a, b⟩ := c
    simp only [writeCell]
    split
    · simp only [readCell]; split <;> split <;> grind
    · split
      · simp only [readCell]; split <;> grind
      · simp only [readCell, ih]; split <;> grind

/-- A write adds no cell but its own. -/
theorem mem_writeCell {m : Memory} {i : Nat} {v : Byte} {c : Host.Cell} (h : c ∈ writeCell m i v) :
    c = (i, v) ∨ c ∈ m := by
  induction m with
  | nil => simpa [writeCell] using h
  | cons d rest ih =>
    obtain ⟨a, b⟩ := d
    simp only [writeCell] at h
    split at h
    · simpa using h
    · split at h
      · simp at h ⊢; tauto
      · simp only [List.mem_cons] at h ⊢
        rcases h with rfl | h
        · tauto
        · rcases ih h with h | h <;> tauto

/-- A write keeps the canonical form. -/
theorem writeCell_wf {m : Memory} (h : Memory.wf m) (i : Nat) (v : Byte) : Memory.wf (writeCell m i v) := by
  induction m with
  | nil => simp [writeCell, Memory.wf]
  | cons d rest ih =>
    obtain ⟨a, b⟩ := d
    simp only [Memory.wf, List.map_cons, List.pairwise_cons, List.mem_map, forall_exists_index, and_imp] at h ih ⊢
    simp only [writeCell]
    split
    · rename_i hia
      simp only [List.map_cons, List.pairwise_cons, List.mem_cons, List.mem_map]
      refine ⟨?_, ?_, h.2⟩
      · rintro x (rfl | ⟨c, hc, rfl⟩)
        · exact hia
        · exact hia.trans (h.1 _ c hc rfl)
      · rintro x ⟨c, hc, rfl⟩; exact h.1 _ c hc rfl
    · split
      · rename_i hia
        subst hia
        simp only [List.map_cons, List.pairwise_cons, List.mem_map]
        exact ⟨by rintro x ⟨c, hc, rfl⟩; exact h.1 _ c hc rfl, h.2⟩
      · simp only [List.map_cons, List.pairwise_cons, List.mem_map]
        refine ⟨?_, ih h.2⟩
        rintro x ⟨c, hc, rfl⟩
        rcases mem_writeCell hc with rfl | hc
        · simp only; omega
        · exact h.1 _ c hc rfl

/-- A write of one cell below a bound keeps every cell below it. -/
theorem writeCell_bound {m : Memory} {n : Nat} (h : ∀ c ∈ m, c.1 < n) {i : Nat} (hi : i < n) (v : Byte) :
    ∀ c ∈ writeCell m i v, c.1 < n := by
  intro c hc
  rcases mem_writeCell hc with rfl | hc
  · exact hi
  · exact h c hc

/-- A write of many cells: each of them holds its byte, every other cell is as before. -/
theorem readCell_writeCells (bs : List Byte) (m : Memory) (i k : Nat) :
    readCell (writeCells m i bs) k = if i ≤ k ∧ k < i + bs.length then bs[k - i]? else readCell m k := by
  induction bs generalizing m i with
  | nil => simp only [writeCells, List.length_nil]; rw [if_neg]; omega
  | cons b rest ih =>
    simp only [writeCells, ih, readCell_writeCell, List.length_cons]
    rcases Nat.lt_trichotomy k i with h | rfl | h
    · rw [if_neg (by omega), if_neg (by omega), if_neg (by omega)]
    · rw [if_neg (by omega), if_pos rfl, if_pos (by omega)]; simp
    · by_cases h2 : k < i + 1 + rest.length
      · rw [if_pos (by omega), if_pos (by omega)]
        obtain ⟨d, rfl⟩ : ∃ d, k = i + 1 + d := ⟨k - (i + 1), by omega⟩
        simp [show i + 1 + d - (i + 1) = d by omega, show i + 1 + d - i = d + 1 by omega]
      · rw [if_neg (by omega), if_neg (by omega), if_neg (by omega)]

/-- A write of many cells keeps the canonical form. -/
theorem writeCells_wf (bs : List Byte) {m : Memory} (h : Memory.wf m) (i : Nat) : Memory.wf (writeCells m i bs) := by
  induction bs generalizing m i with
  | nil => exact h
  | cons b rest ih => exact ih (writeCell_wf h i b) (i + 1)

/-- A write of many cells below a bound keeps every cell below it. -/
theorem writeCells_bound (bs : List Byte) {m : Memory} {n : Nat} (h : ∀ c ∈ m, c.1 < n) {i : Nat}
    (hi : i + bs.length ≤ n) : ∀ c ∈ writeCells m i bs, c.1 < n := by
  induction bs generalizing m i with
  | nil => exact h
  | cons b rest ih =>
    simp only [List.length_cons] at hi
    exact ih (writeCell_bound h (by omega) b) (by omega)

/-- The written cells hold what was written. -/
theorem cellsHold_writeCells (m : Memory) (i : Nat) (bs : List Byte) : CellsHold (writeCells m i bs) i bs := by
  intro j b hb
  obtain ⟨hlt, -⟩ := List.getElem?_eq_some_iff.mp hb
  rw [readCell_writeCells, if_pos ⟨by omega, by omega⟩]
  simpa using hb

/-- What a buffer holds from an index on, with its first byte apart. -/
theorem cellsHold_cons {m : Memory} {i : Nat} {b : Byte} {bs : List Byte} :
    CellsHold m i (b :: bs) ↔ readCell m i = some b ∧ CellsHold m (i + 1) bs := by
  constructor
  · intro h
    exact ⟨h 0 b rfl, fun j c hc => by simpa [Nat.add_assoc, Nat.add_comm 1 j] using h (j + 1) c (by simpa using hc)⟩
  · rintro ⟨h0, h⟩ j c hc
    cases j with
    | zero => simp only [List.getElem?_cons_zero, Option.some.injEq] at hc; subst hc; simpa using h0
    | succ j => simpa [Nat.add_assoc, Nat.add_comm 1 j] using h j c (by simpa using hc)

/-- A read of many cells answers just the bytes they hold. -/
theorem readCells_eq_ok {m : Memory} {i n : Nat} {bs : List Byte} :
    readCells m i n = .ok bs ↔ bs.length = n ∧ CellsHold m i bs := by
  induction n generalizing i bs with
  | zero =>
    simp only [readCells, Except.ok.injEq]
    constructor
    · rintro rfl; exact ⟨rfl, fun j b hb => by simp at hb⟩
    · rintro ⟨h, -⟩; exact (List.length_eq_zero_iff.mp h).symm
  | succ n ih =>
    simp only [readCells]
    cases h1 : readCell m i with
    | none =>
      simp only [reduceCtorEq, false_iff, not_and]
      intro hl hc
      cases bs with
      | nil => simp at hl
      | cons b bs => simp [(cellsHold_cons.mp hc).1] at h1
    | some b =>
      cases h2 : readCells m (i + 1) n with
      | error e =>
        simp only [reduceCtorEq, false_iff, not_and]
        intro hl hc
        cases bs with
        | nil => simp at hl
        | cons c bs =>
          have := ih.mpr ⟨by simpa using hl, (cellsHold_cons.mp hc).2⟩
          simp [h2] at this
      | ok cs =>
        simp only [Except.ok.injEq]
        have hcs := ih.mp h2
        constructor
        · rintro rfl; exact ⟨by simp [hcs.1], cellsHold_cons.mpr ⟨h1, hcs.2⟩⟩
        · rintro ⟨hl, hc⟩
          cases bs with
          | nil => simp at hl
          | cons c bs =>
            have hc := cellsHold_cons.mp hc
            rw [ih.mpr ⟨by simpa using hl, hc.2⟩] at h2
            simp_all

/-- A read of many cells stops only on an unwritten one, and then it does. -/
theorem readCells_error {m : Memory} {i n : Nat} {e : Stop} :
    readCells m i n = .error e ↔ e = .fault .unwrittenRead ∧ ∃ j < n, readCell m (i + j) = none := by
  induction n generalizing i with
  | zero => simp [readCells]
  | succ n ih =>
    simp only [readCells]
    cases h1 : readCell m i with
    | none =>
      simp only [Except.error.injEq]
      exact ⟨fun h => ⟨h.symm, 0, by omega, h1⟩, fun h => h.1.symm⟩
    | some b =>
      have key : (∃ j < n, readCell m (i + 1 + j) = none) ↔ ∃ j < n + 1, readCell m (i + j) = none := by
        constructor
        · rintro ⟨j, hj, h⟩; exact ⟨j + 1, by omega, by rw [← h]; congr 1; omega⟩
        · rintro ⟨j, hj, h⟩
          cases j with
          | zero => simp [h1] at h
          | succ j => exact ⟨j, by omega, by rw [← h]; congr 1; omega⟩
      cases h2 : readCells m (i + 1) n with
      | error e' =>
        simp only [Except.error.injEq]
        rw [← key, ← ih (i := i + 1), h2]
        simp
      | ok cs =>
        simp only [reduceCtorEq, false_iff, not_and]
        rintro rfl hj
        have := ih.mpr ⟨rfl, key.mpr hj⟩
        simp [h2] at this

end Sys2Proof.Machine
end

