-- ==== Sys2Proof/Laws/State.lean ====
section
/-! SUPPORT. One lemma for each field of State under each named update of it, all true by definition. -/

namespace Sys2Proof.Machine

@[simp] theorem finish_cfg (s : State) : (finish s).cfg = s.cfg := rfl
@[simp] theorem finish_cmd (s : State) : (finish s).cmd = s.cmd := rfl
@[simp] theorem finish_status (s : State) : (finish s).status = clearBusy s.status := rfl
@[simp] theorem finish_off (s : State) : (finish s).off = s.off := rfl
@[simp] theorem finish_len (s : State) : (finish s).len = s.len := rfl
@[simp] theorem finish_val (s : State) : (finish s).val = s.val := rfl
@[simp] theorem finish_res (s : State) : (finish s).res = s.res := rfl
@[simp] theorem finish_dlen (s : State) : (finish s).dlen = s.dlen := rfl
@[simp] theorem finish_tlen (s : State) : (finish s).tlen = s.tlen := rfl
@[simp] theorem finish_bccAcc (s : State) : (finish s).bccAcc = s.bccAcc := rfl
@[simp] theorem finish_addAcc (s : State) : (finish s).addAcc = s.addAcc := rfl
@[simp] theorem finish_crcAcc (s : State) : (finish s).crcAcc = s.crcAcc := rfl
@[simp] theorem finish_crcMode (s : State) : (finish s).crcMode = s.crcMode := rfl
@[simp] theorem finish_errInfo (s : State) : (finish s).errInfo = s.errInfo := rfl
@[simp] theorem finish_dbuf (s : State) : (finish s).dbuf = s.dbuf := rfl
@[simp] theorem finish_tbuf (s : State) : (finish s).tbuf = s.tbuf := rfl
@[simp] theorem finish_pending (s : State) : (finish s).pending = none := rfl
@[simp] theorem finish_host (s : State) : (finish s).host = s.host := rfl
@[simp] theorem finish_draws (s : State) : (finish s).draws = s.draws := rfl

@[simp] theorem reportError_cfg (e : ErrCode) (info : Int) (s : State) : (reportError e info s).cfg = s.cfg := rfl
@[simp] theorem reportError_cmd (e : ErrCode) (info : Int) (s : State) : (reportError e info s).cmd = s.cmd := rfl
@[simp] theorem reportError_status (e : ErrCode) (info : Int) (s : State) : (reportError e info s).status = setError (errCodeValue e) s.status := rfl
@[simp] theorem reportError_off (e : ErrCode) (info : Int) (s : State) : (reportError e info s).off = s.off := rfl
@[simp] theorem reportError_len (e : ErrCode) (info : Int) (s : State) : (reportError e info s).len = s.len := rfl
@[simp] theorem reportError_val (e : ErrCode) (info : Int) (s : State) : (reportError e info s).val = s.val := rfl
@[simp] theorem reportError_res (e : ErrCode) (info : Int) (s : State) : (reportError e info s).res = s.res := rfl
@[simp] theorem reportError_dlen (e : ErrCode) (info : Int) (s : State) : (reportError e info s).dlen = s.dlen := rfl
@[simp] theorem reportError_tlen (e : ErrCode) (info : Int) (s : State) : (reportError e info s).tlen = s.tlen := rfl
@[simp] theorem reportError_bccAcc (e : ErrCode) (info : Int) (s : State) : (reportError e info s).bccAcc = s.bccAcc := rfl
@[simp] theorem reportError_addAcc (e : ErrCode) (info : Int) (s : State) : (reportError e info s).addAcc = s.addAcc := rfl
@[simp] theorem reportError_crcAcc (e : ErrCode) (info : Int) (s : State) : (reportError e info s).crcAcc = s.crcAcc := rfl
@[simp] theorem reportError_crcMode (e : ErrCode) (info : Int) (s : State) : (reportError e info s).crcMode = s.crcMode := rfl
@[simp] theorem reportError_errInfo (e : ErrCode) (info : Int) (s : State) : (reportError e info s).errInfo = BitVec.ofInt 32 info := rfl
@[simp] theorem reportError_dbuf (e : ErrCode) (info : Int) (s : State) : (reportError e info s).dbuf = s.dbuf := rfl
@[simp] theorem reportError_tbuf (e : ErrCode) (info : Int) (s : State) : (reportError e info s).tbuf = s.tbuf := rfl
@[simp] theorem reportError_pending (e : ErrCode) (info : Int) (s : State) : (reportError e info s).pending = s.pending := rfl
@[simp] theorem reportError_host (e : ErrCode) (info : Int) (s : State) : (reportError e info s).host = s.host := rfl
@[simp] theorem reportError_draws (e : ErrCode) (info : Int) (s : State) : (reportError e info s).draws = s.draws := rfl

@[simp] theorem startCommand_cfg (w : Word) (left : Nat) (s : State) : (startCommand w left s).cfg = s.cfg := rfl
@[simp] theorem startCommand_cmd (w : Word) (left : Nat) (s : State) : (startCommand w left s).cmd = w := rfl
@[simp] theorem startCommand_status (w : Word) (left : Nat) (s : State) : (startCommand w left s).status = statusBusy := rfl
@[simp] theorem startCommand_off (w : Word) (left : Nat) (s : State) : (startCommand w left s).off = s.off := rfl
@[simp] theorem startCommand_len (w : Word) (left : Nat) (s : State) : (startCommand w left s).len = s.len := rfl
@[simp] theorem startCommand_val (w : Word) (left : Nat) (s : State) : (startCommand w left s).val = s.val := rfl
@[simp] theorem startCommand_res (w : Word) (left : Nat) (s : State) : (startCommand w left s).res = s.res := rfl
@[simp] theorem startCommand_dlen (w : Word) (left : Nat) (s : State) : (startCommand w left s).dlen = s.dlen := rfl
@[simp] theorem startCommand_tlen (w : Word) (left : Nat) (s : State) : (startCommand w left s).tlen = s.tlen := rfl
@[simp] theorem startCommand_bccAcc (w : Word) (left : Nat) (s : State) : (startCommand w left s).bccAcc = s.bccAcc := rfl
@[simp] theorem startCommand_addAcc (w : Word) (left : Nat) (s : State) : (startCommand w left s).addAcc = s.addAcc := rfl
@[simp] theorem startCommand_crcAcc (w : Word) (left : Nat) (s : State) : (startCommand w left s).crcAcc = s.crcAcc := rfl
@[simp] theorem startCommand_crcMode (w : Word) (left : Nat) (s : State) : (startCommand w left s).crcMode = s.crcMode := rfl
@[simp] theorem startCommand_errInfo (w : Word) (left : Nat) (s : State) : (startCommand w left s).errInfo = 0 := rfl
@[simp] theorem startCommand_dbuf (w : Word) (left : Nat) (s : State) : (startCommand w left s).dbuf = s.dbuf := rfl
@[simp] theorem startCommand_tbuf (w : Word) (left : Nat) (s : State) : (startCommand w left s).tbuf = s.tbuf := rfl
@[simp] theorem startCommand_pending (w : Word) (left : Nat) (s : State) : (startCommand w left s).pending = some ⟨w, left⟩ := rfl
@[simp] theorem startCommand_host (w : Word) (left : Nat) (s : State) : (startCommand w left s).host = s.host := rfl
@[simp] theorem startCommand_draws (w : Word) (left : Nat) (s : State) : (startCommand w left s).draws = s.draws := rfl

@[simp] theorem noteRead_cfg (addr : Nat) (v : Word) (s : State) : (noteRead addr v s).cfg = s.cfg := rfl
@[simp] theorem noteRead_cmd (addr : Nat) (v : Word) (s : State) : (noteRead addr v s).cmd = s.cmd := rfl
@[simp] theorem noteRead_status (addr : Nat) (v : Word) (s : State) : (noteRead addr v s).status = s.status := rfl
@[simp] theorem noteRead_off (addr : Nat) (v : Word) (s : State) : (noteRead addr v s).off = s.off := rfl
@[simp] theorem noteRead_len (addr : Nat) (v : Word) (s : State) : (noteRead addr v s).len = s.len := rfl
@[simp] theorem noteRead_val (addr : Nat) (v : Word) (s : State) : (noteRead addr v s).val = s.val := rfl
@[simp] theorem noteRead_res (addr : Nat) (v : Word) (s : State) : (noteRead addr v s).res = s.res := rfl
@[simp] theorem noteRead_dlen (addr : Nat) (v : Word) (s : State) : (noteRead addr v s).dlen = s.dlen := rfl
@[simp] theorem noteRead_tlen (addr : Nat) (v : Word) (s : State) : (noteRead addr v s).tlen = s.tlen := rfl
@[simp] theorem noteRead_bccAcc (addr : Nat) (v : Word) (s : State) : (noteRead addr v s).bccAcc = s.bccAcc := rfl
@[simp] theorem noteRead_addAcc (addr : Nat) (v : Word) (s : State) : (noteRead addr v s).addAcc = s.addAcc := rfl
@[simp] theorem noteRead_crcAcc (addr : Nat) (v : Word) (s : State) : (noteRead addr v s).crcAcc = s.crcAcc := rfl
@[simp] theorem noteRead_crcMode (addr : Nat) (v : Word) (s : State) : (noteRead addr v s).crcMode = s.crcMode := rfl
@[simp] theorem noteRead_errInfo (addr : Nat) (v : Word) (s : State) : (noteRead addr v s).errInfo = s.errInfo := rfl
@[simp] theorem noteRead_dbuf (addr : Nat) (v : Word) (s : State) : (noteRead addr v s).dbuf = s.dbuf := rfl
@[simp] theorem noteRead_tbuf (addr : Nat) (v : Word) (s : State) : (noteRead addr v s).tbuf = s.tbuf := rfl
@[simp] theorem noteRead_pending (addr : Nat) (v : Word) (s : State) : (noteRead addr v s).pending = s.pending := rfl
@[simp] theorem noteRead_host (addr : Nat) (v : Word) (s : State) : (noteRead addr v s).host = { s.host with seen := (addr, v) :: s.host.seen } := rfl
@[simp] theorem noteRead_draws (addr : Nat) (v : Word) (s : State) : (noteRead addr v s).draws = s.draws := rfl

@[simp] theorem applyReset_cfg (s : State) : (applyReset s).cfg = s.cfg := rfl
@[simp] theorem applyReset_cmd (s : State) : (applyReset s).cmd = 0 := rfl
@[simp] theorem applyReset_status (s : State) : (applyReset s).status = 0 := rfl
@[simp] theorem applyReset_off (s : State) : (applyReset s).off = 0 := rfl
@[simp] theorem applyReset_len (s : State) : (applyReset s).len = 0 := rfl
@[simp] theorem applyReset_val (s : State) : (applyReset s).val = 0 := rfl
@[simp] theorem applyReset_res (s : State) : (applyReset s).res = 0 := rfl
@[simp] theorem applyReset_dlen (s : State) : (applyReset s).dlen = 0 := rfl
@[simp] theorem applyReset_tlen (s : State) : (applyReset s).tlen = 0 := rfl
@[simp] theorem applyReset_bccAcc (s : State) : (applyReset s).bccAcc = 0 := rfl
@[simp] theorem applyReset_addAcc (s : State) : (applyReset s).addAcc = 0 := rfl
@[simp] theorem applyReset_crcAcc (s : State) : (applyReset s).crcAcc = 0 := rfl
@[simp] theorem applyReset_crcMode (s : State) : (applyReset s).crcMode = 1 := rfl
@[simp] theorem applyReset_errInfo (s : State) : (applyReset s).errInfo = 0 := rfl
@[simp] theorem applyReset_dbuf (s : State) : (applyReset s).dbuf = [] := rfl
@[simp] theorem applyReset_tbuf (s : State) : (applyReset s).tbuf = [] := rfl
@[simp] theorem applyReset_pending (s : State) : (applyReset s).pending = none := rfl
@[simp] theorem applyReset_host (s : State) : (applyReset s).host = s.host := rfl
@[simp] theorem applyReset_draws (s : State) : (applyReset s).draws = s.draws := rfl

@[simp] theorem completed_cfg (s : State) : (completed s).cfg = s.cfg := rfl
@[simp] theorem completed_cmd (s : State) : (completed s).cmd = s.cmd := rfl
@[simp] theorem completed_status (s : State) : (completed s).status = s.status &&& 0xFFFFFFFE#32 := rfl
@[simp] theorem completed_off (s : State) : (completed s).off = s.off := rfl
@[simp] theorem completed_len (s : State) : (completed s).len = s.len := rfl
@[simp] theorem completed_val (s : State) : (completed s).val = s.val := rfl
@[simp] theorem completed_res (s : State) : (completed s).res = s.res := rfl
@[simp] theorem completed_dlen (s : State) : (completed s).dlen = s.dlen := rfl
@[simp] theorem completed_tlen (s : State) : (completed s).tlen = s.tlen := rfl
@[simp] theorem completed_bccAcc (s : State) : (completed s).bccAcc = s.bccAcc := rfl
@[simp] theorem completed_addAcc (s : State) : (completed s).addAcc = s.addAcc := rfl
@[simp] theorem completed_crcAcc (s : State) : (completed s).crcAcc = s.crcAcc := rfl
@[simp] theorem completed_crcMode (s : State) : (completed s).crcMode = s.crcMode := rfl
@[simp] theorem completed_errInfo (s : State) : (completed s).errInfo = s.errInfo := rfl
@[simp] theorem completed_dbuf (s : State) : (completed s).dbuf = s.dbuf := rfl
@[simp] theorem completed_tbuf (s : State) : (completed s).tbuf = s.tbuf := rfl
@[simp] theorem completed_pending (s : State) : (completed s).pending = none := rfl
@[simp] theorem completed_host (s : State) : (completed s).host = s.host := rfl
@[simp] theorem completed_draws (s : State) : (completed s).draws = s.draws := rfl

@[simp] theorem failed_cfg (code : Byte) (info : Word) (s : State) : (failed code info s).cfg = s.cfg := rfl
@[simp] theorem failed_cmd (code : Byte) (info : Word) (s : State) : (failed code info s).cmd = s.cmd := rfl
@[simp] theorem failed_status (code : Byte) (info : Word) (s : State) : (failed code info s).status = (s.status &&& 0xFFFF00FC#32) ||| 0x00000002#32 ||| (code.setWidth 32 <<< 8) := rfl
@[simp] theorem failed_off (code : Byte) (info : Word) (s : State) : (failed code info s).off = s.off := rfl
@[simp] theorem failed_len (code : Byte) (info : Word) (s : State) : (failed code info s).len = s.len := rfl
@[simp] theorem failed_val (code : Byte) (info : Word) (s : State) : (failed code info s).val = s.val := rfl
@[simp] theorem failed_res (code : Byte) (info : Word) (s : State) : (failed code info s).res = s.res := rfl
@[simp] theorem failed_dlen (code : Byte) (info : Word) (s : State) : (failed code info s).dlen = s.dlen := rfl
@[simp] theorem failed_tlen (code : Byte) (info : Word) (s : State) : (failed code info s).tlen = s.tlen := rfl
@[simp] theorem failed_bccAcc (code : Byte) (info : Word) (s : State) : (failed code info s).bccAcc = s.bccAcc := rfl
@[simp] theorem failed_addAcc (code : Byte) (info : Word) (s : State) : (failed code info s).addAcc = s.addAcc := rfl
@[simp] theorem failed_crcAcc (code : Byte) (info : Word) (s : State) : (failed code info s).crcAcc = s.crcAcc := rfl
@[simp] theorem failed_crcMode (code : Byte) (info : Word) (s : State) : (failed code info s).crcMode = s.crcMode := rfl
@[simp] theorem failed_errInfo (code : Byte) (info : Word) (s : State) : (failed code info s).errInfo = info := rfl
@[simp] theorem failed_dbuf (code : Byte) (info : Word) (s : State) : (failed code info s).dbuf = s.dbuf := rfl
@[simp] theorem failed_tbuf (code : Byte) (info : Word) (s : State) : (failed code info s).tbuf = s.tbuf := rfl
@[simp] theorem failed_pending (code : Byte) (info : Word) (s : State) : (failed code info s).pending = none := rfl
@[simp] theorem failed_host (code : Byte) (info : Word) (s : State) : (failed code info s).host = s.host := rfl
@[simp] theorem failed_draws (code : Byte) (info : Word) (s : State) : (failed code info s).draws = s.draws := rfl

end Sys2Proof.Machine
end

