-- ==== Sys2Proof/Laws/Status.lean ====
section
/-! SUPPORT. The laws of STATUS's fields and of how a command ends. -/

namespace Sys2Proof.Machine

/-- Clearing BUSY is all that ends a command that raised nothing. -/
theorem finish_eq_completed (s : State) : finish s = completed s := rfl

/-- The bits of STATUS after an error report and the clearing of BUSY. -/
theorem clearBusy_setError (code : Byte) (st : Word) :
    clearBusy (setError code st) = (st &&& 0xFFFF00FC#32) ||| 0x00000002#32 ||| (code.setWidth 32 <<< 8) := by
  simp only [clearBusy, setError]
  rw [BitVec.and_or_distrib_right, BitVec.and_or_distrib_right, BitVec.and_assoc]
  have h : (code.setWidth 32 <<< 8) &&& 0xFFFFFFFE#32 = code.setWidth 32 <<< 8 := by
    revert code; decide
  rw [h]; rfl

/-- The end of a command that raised an error. -/
theorem finish_reportError (e : ErrCode) (info : Int) (s : State) :
    finish (reportError e info s) = failed (errCodeValue e) (BitVec.ofInt 32 info) s := by
  simp only [finish, reportError, failed, clearBusy_setError]

/-- How a command can end in a next state: with its writes made, or with an error report on the state before it. -/
theorem complete_eq_next {r : Except Stop State} {s t : State} :
    complete r s = .next t ↔
      (∃ s', r = .ok s' ∧ t = completed s') ∨
        ∃ e info, r = .error (.raise e info) ∧ t = failed (errCodeValue e) (BitVec.ofInt 32 info) s := by
  cases r with
  | ok s' => simp [complete, finish_eq_completed, eq_comm]
  | error x =>
    cases x with
    | raise e info =>
      simp only [complete, finish_reportError, Host.Outcome.next.injEq]
      constructor
      · rintro rfl; exact .inr ⟨e, info, rfl, rfl⟩
      · rintro (⟨s', h, -⟩ | ⟨e', info', h, rfl⟩)
        · cases h
        · cases h; rfl
    | fault f =>
      simp only [complete, reduceCtorEq, false_iff]
      rintro (⟨s', h, -⟩ | ⟨e', info', h, -⟩) <;> cases h

/-- A command that raises nothing. -/
@[simp] theorem complete_ok (s' s : State) : complete (.ok s') s = .next (completed s') := rfl

/-- A command that raises an error. -/
@[simp] theorem complete_raise (e : ErrCode) (info : Int) (s : State) :
    complete (raise e info) s = .next (failed (errCodeValue e) (BitVec.ofInt 32 info) s) := by
  rw [← finish_reportError]; rfl

/-- The same, the raise written as it comes out of a `match`. -/
@[simp] theorem complete_error_raise (e : ErrCode) (info : Int) (s : State) :
    complete (.error (.raise e info)) s = .next (failed (errCodeValue e) (BitVec.ofInt 32 info) s) :=
  complete_raise e info s

/-- A command that meets a fault. -/
@[simp] theorem complete_fault (f : Fault) (s : State) : complete (.error (.fault f)) s = .fault f := rfl

/-- STATUS after an error report made while BUSY is its only bit: ERR, and the code in ERRCODE. -/
theorem failed_status_of_busy (code : Byte) (info : Word) {s : State} (h : s.status = 0x00000001#32) :
    (failed code info s).status = 0x00000002#32 ||| (code.setWidth 32 <<< 8) := by
  rw [failed_status, h]
  have : (0x00000001#32 &&& 0xFFFF00FC#32 : Word) = 0 := by decide
  rw [this]; simp

/-- The fields of STATUS after an error report. -/
theorem failed_status_fields (code : Byte) (info : Word) (s : State) :
    (failed code info s).status.getLsbD 0 = false ∧ (failed code info s).status.getLsbD 1 = true ∧
      (failed code info s).status.extractLsb' 8 8 = code ∧
      (failed code info s).status &&& 0xFFFF00FC#32 = s.status &&& 0xFFFF00FC#32 := by
  simp only [failed_status]
  refine ⟨by simp, by simp, ?_, ?_⟩
  · have h1 : ∀ c : Byte, (c.setWidth 32 <<< 8).extractLsb' 8 8 = c := by decide
    have h2 : ∀ a b : Word, (a ||| b).extractLsb' 8 8 = a.extractLsb' 8 8 ||| b.extractLsb' 8 8 := by
      intro a b; ext i hi; simp
    have h3 : (s.status &&& 0xFFFF00FC#32).extractLsb' 8 8 = 0 := by
      ext i hi
      simp only [BitVec.getElem_extractLsb', BitVec.getLsbD_and, BitVec.getElem_zero, BitVec.ofNat_eq_ofNat]
      have : (0xFFFF00FC#32).getLsbD (8 + i) = false := by
        have : ∀ j < 8, (0xFFFF00FC#32).getLsbD (8 + j) = false := by decide
        exact this i hi
      simp [this]
    rw [h2, h2, h1, h3]
    have : (0x00000002#32).extractLsb' 8 8 = 0#8 := by decide
    rw [this]; simp
  · have h : ∀ c : Byte, (c.setWidth 32 <<< 8) &&& 0xFFFF00FC#32 = 0 := by decide
    rw [BitVec.and_or_distrib_right, BitVec.and_or_distrib_right, BitVec.and_assoc, h]
    have : (0x00000002#32 &&& 0xFFFF00FC#32 : Word) = 0 := by decide
    rw [this]; simp

end Sys2Proof.Machine
end

