-- ==== Sys2Proof/Laws/Operands.lean ====
section
/-! SUPPORT. What the shared operand forms and the grow rule can do. -/

namespace Sys2Proof.Machine

/-- A non-negative OFF is the start index. -/
theorem offsetOperand_nonneg {s : State} (h : 0 ≤ s.off.toInt) : offsetOperand s = .ok s.off.toInt.toNat := by
  rw [offsetOperand, if_neg (by omega)]

/-- A negative OFF raises NEGATIVE_RANGE(1). -/
theorem offsetOperand_neg {s : State} (h : s.off.toInt < 0) : offsetOperand s = raise .negativeRange 1 := by
  rw [offsetOperand, if_pos h]

/-- OFF is accepted just when it is not negative. -/
theorem offsetOperand_eq_ok {s : State} {o : Nat} :
    offsetOperand s = .ok o ↔ 0 ≤ s.off.toInt ∧ o = s.off.toInt.toNat := by
  by_cases h : s.off.toInt < 0
  · rw [offsetOperand_neg h]; simp only [raise, reduceCtorEq, false_iff]; omega
  · rw [offsetOperand_nonneg (by omega)]; simp only [Except.ok.injEq, eq_comm]; omega

/-- A signed 32-bit operand lies below 2^31. -/
theorem toInt_lt_two_pow_31 (w : Word) : w.toInt < 2147483648 := by
  have := BitVec.toInt_lt (x := w); simpa using this

/-- A signed 32-bit operand is at least -2^31. -/
theorem neg_two_pow_31_le_toInt (w : Word) : -2147483648 ≤ w.toInt := by
  have := BitVec.le_toInt (x := w); simpa using this

/-- `DataRange` with both operands non-negative. -/
theorem dataRange_nonneg {s : State} (h : 0 ≤ s.off.toInt) (hl : 0 ≤ s.len.toInt) :
    dataRange s = .ok (s.off.toInt.toNat,
      (max 0 (min (s.off.toInt + s.len.toInt) s.dlen.toNat - s.off.toInt)).toNat) := by
  rw [dataRange, offsetOperand_nonneg h]
  simp only [if_neg (show ¬ s.len.toInt < 0 by omega), rangeCount, clampEnd]
  rw [Int.toNat_of_nonneg h]

/-- The bytes of a range command are those the clamped range holds. -/
theorem dataBytes_of_rangeHolds {s : State} {bs : List Byte} (h : RangeHolds s bs) :
    dataBytes s = .ok (s.off.toInt.toNat, bs) := by
  have hn : bs.length = (max 0 (min (s.off.toInt + s.len.toInt) s.dlen.toNat - s.off.toInt)).toNat := by
    have := h.length_eq; omega
  rw [dataBytes, dataRange_nonneg h.off_nonneg h.len_nonneg]
  simp only [readCells_eq_ok.mpr ⟨hn, h.cells⟩]

/-- A range command with a negative OFF. -/
theorem dataBytes_off_neg {s : State} (h : s.off.toInt < 0) : dataBytes s = raise .negativeRange 1 := by
  rw [dataBytes, dataRange, offsetOperand_neg h]; rfl

/-- A range command with a negative LEN. -/
theorem dataBytes_len_neg {s : State} (h : 0 ≤ s.off.toInt) (hl : s.len.toInt < 0) :
    dataBytes s = raise .negativeRange 2 := by
  rw [dataBytes, dataRange, offsetOperand_nonneg h]; simp only [if_pos hl]; rfl

/-- Everything `dataBytes` can do. -/
theorem dataBytes_cases (s : State) :
    (s.off.toInt < 0 ∧ dataBytes s = raise .negativeRange 1) ∨
    (0 ≤ s.off.toInt ∧ s.len.toInt < 0 ∧ dataBytes s = raise .negativeRange 2) ∨
    (0 ≤ s.off.toInt ∧ 0 ≤ s.len.toInt ∧ dataBytes s = .error (.fault .unwrittenRead)) ∨
    ∃ bs, RangeHolds s bs ∧ dataBytes s = .ok (s.off.toInt.toNat, bs) := by
  by_cases h : s.off.toInt < 0
  · exact .inl ⟨h, dataBytes_off_neg h⟩
  by_cases hl : s.len.toInt < 0
  · exact .inr (.inl ⟨by omega, hl, dataBytes_len_neg (by omega) hl⟩)
  have h : 0 ≤ s.off.toInt := by omega
  have hl : 0 ≤ s.len.toInt := by omega
  refine .inr (.inr ?_)
  rw [dataBytes, dataRange_nonneg h hl]
  simp only
  cases hr : readCells s.dbuf s.off.toInt.toNat
      (max 0 (min (s.off.toInt + s.len.toInt) s.dlen.toNat - s.off.toInt)).toNat with
  | error e => obtain ⟨rfl, -⟩ := readCells_error.mp hr; exact .inl ⟨h, hl, rfl⟩
  | ok bs =>
    obtain ⟨hn, hc⟩ := readCells_eq_ok.mp hr
    exact .inr ⟨bs, ⟨h, hl, by omega, hc⟩, rfl⟩

/-- A range with an unwritten cell stops the command (R39). -/
theorem dataBytes_unwritten {s : State} (h : 0 ≤ s.off.toInt) (hl : 0 ≤ s.len.toInt) {k : Nat}
    (hk : s.off.toInt ≤ k) (hk2 : (k : Int) < min (s.off.toInt + s.len.toInt) s.dlen.toNat)
    (hu : readCell s.dbuf k = none) : dataBytes s = .error (.fault .unwrittenRead) := by
  rw [dataBytes, dataRange_nonneg h hl]
  have : readCells s.dbuf s.off.toInt.toNat
      (max 0 (min (s.off.toInt + s.len.toInt) s.dlen.toNat - s.off.toInt)).toNat = .error (.fault .unwrittenRead) :=
    readCells_error.mpr ⟨rfl, k - s.off.toInt.toNat, by omega, by rw [← hu]; congr 1; omega⟩
  simp only [this]

/-- The bytes of a value, each by its place. -/
theorem splitBytes_getElem? (n : Nat) (v : DWord) (j : Nat) :
    (splitBytes n v)[j]? = if j < n then some (v.extractLsb' (8 * (n - 1 - j)) 8) else none := by
  rw [splitBytes, List.getElem?_map]
  by_cases h : j < n <;> simp [h]

@[simp] theorem splitBytes_length (n : Nat) (v : DWord) : (splitBytes n v).length = n := by simp [splitBytes]

/-- The grow rule refuses what does not fit. -/
theorem growWrite_capacity {o n : Nat} {v : DWord} {s : State} (h : s.cfg.bufCap < o + n) :
    growWrite o n v s = raise .capacity (o + n : Nat) := by rw [growWrite, if_pos h]

/-- Everything the grow rule does to what fits: the new length, the stored bytes, the zeroed gap, and every other cell. -/
theorem growWrite_fits {o n : Nat} {v : DWord} {s : State} (h : o + n ≤ s.cfg.bufCap) :
    ∃ m, growWrite o n v s =
        .ok { s with
          dbuf := m
          dlen := if s.dlen.toNat < o + n then BitVec.ofNat 32 (o + n) else s.dlen } ∧
      (Memory.wf s.dbuf → Memory.wf m) ∧
      ((∀ c ∈ s.dbuf, c.1 < s.cfg.bufCap) → ∀ c ∈ m, c.1 < s.cfg.bufCap) ∧
      ∀ k, readCell m k =
        if o ≤ k ∧ k < o + n then some (v.extractLsb' (8 * (n - 1 - (k - o))) 8)
        else if s.dlen.toNat ≤ k ∧ k < o then some 0
        else readCell s.dbuf k := by
  rw [growWrite, if_neg (by omega)]
  by_cases hd : s.dlen.toNat < o + n
  · refine ⟨_, by rw [if_pos hd, if_pos hd], ?_, ?_, ?_⟩
    · intro hw; exact writeCells_wf _ (writeCells_wf _ hw _) _
    · intro hb
      by_cases hg : s.dlen.toNat ≤ o
      · exact writeCells_bound _ (writeCells_bound _ hb (by simp; omega)) (by simp; omega)
      · have : o - s.dlen.toNat = 0 := by omega
        rw [this]
        exact writeCells_bound _ hb (by simp; omega)
    · intro k
      rw [readCell_writeCells, readCell_writeCells, splitBytes_length, List.length_replicate]
      by_cases h1 : o ≤ k ∧ k < o + n
      · rw [if_pos h1, if_pos h1, splitBytes_getElem?, if_pos (by omega)]
      · rw [if_neg h1, if_neg h1]
        by_cases h2 : s.dlen.toNat ≤ k ∧ k < o
        · rw [if_pos (by omega), if_pos h2, List.getElem?_replicate, if_pos (by omega)]
        · rw [if_neg (by omega), if_neg h2]
  · refine ⟨_, by rw [if_neg hd, if_neg hd], fun hw => writeCells_wf _ hw _,
      fun hb => writeCells_bound _ hb (by simp; omega), ?_⟩
    intro k
    rw [readCell_writeCells, splitBytes_length]
    by_cases h1 : o ≤ k ∧ k < o + n
    · rw [if_pos h1, if_pos h1, splitBytes_getElem?, if_pos (by omega)]
    · rw [if_neg h1, if_neg h1, if_neg (by omega)]

/-- `MemRead` is the big-endian number of its bytes, up to the eight that fit RES. -/
theorem joinBytes_toNat (bs : List Byte) : (joinBytes bs).toNat = bigEndian bs % 2 ^ 64 := by
  have key : ∀ (bs : List Byte) (v : DWord) (n : Nat), v.toNat = n % 2 ^ 64 →
      (bs.foldl (fun (v : DWord) (b : Byte) => (v <<< 8) ||| b.setWidth 64) v).toNat =
        bs.foldl (fun (v : Nat) (b : Byte) => 256 * v + b.toNat) n % 2 ^ 64 := by
    intro bs
    induction bs with
    | nil => intro v n h; exact h
    | cons b rest ih =>
      intro v n h
      refine ih _ _ ?_
      have hb : b.toNat < 256 := b.isLt
      have hor : ((v <<< 8) ||| b.setWidth 64 : DWord) = (v <<< 8) + b.setWidth 64 := by
        rw [BitVec.add_eq_or_of_and_eq_zero]
        ext i hi
        simp only [BitVec.getElem_and, BitVec.getElem_shiftLeft, BitVec.getElem_setWidth, BitVec.getElem_zero]
        by_cases h8 : i < 8
        · simp [h8]
        · simp [BitVec.getLsbD_of_ge b i (by omega)]
      simp only [hor]
      simp only [BitVec.toNat_add, BitVec.toNat_shiftLeft, BitVec.toNat_setWidth, h, Nat.shiftLeft_eq]
      omega
  have := key bs 0 0 (by simp)
  simpa [joinBytes, bigEndian] using this

end Sys2Proof.Machine
end

