-- ==== Sys2Proof/Laws/Frame.lean ====
section
/-! SUPPORT. What each command can write, said once: the frame of every command and what it keeps of the invariant. -/

namespace Sys2Proof.Machine

/-- A write of DBUF and DLEN that keeps the canonical form, the capacity and DLEN's range. -/
def DbufWrite (s s' : State) : Prop :=
  ∃ m d, s' = { s with dbuf := m, dlen := d } ∧ (Memory.wf s.dbuf → Memory.wf m) ∧
    ((∀ c ∈ s.dbuf, c.1 < s.cfg.bufCap) → ∀ c ∈ m, c.1 < s.cfg.bufCap) ∧
    (s.dlen.toNat ≤ s.cfg.bufCap → d.toNat ≤ s.cfg.bufCap)

/-- A write of TBUF and TLEN that keeps the canonical form, the capacity and TLEN's range. -/
def TbufWrite (s s' : State) : Prop :=
  ∃ m d, s' = { s with tbuf := m, tlen := d } ∧ (Memory.wf s.tbuf → Memory.wf m) ∧
    ((∀ c ∈ s.tbuf, c.1 < s.cfg.txtCap) → ∀ c ∈ m, c.1 < s.cfg.txtCap) ∧ d.toNat ≤ s.cfg.txtCap

/-- What a command that raises nothing writes, by its name. -/
def Writes (i : Instr) (s s' : State) : Prop :=
  match i with
  | .unpack16 | .unpack32 | .unpack64 | .flip8 | .flip16 | .flip32 | .flip64 | .byte2u | .hexchar
  | .bccFin | .bccFinb | .addFin | .addFinb | .crcFin | .crcFinb => ∃ v, s' = { s with res := v }
  | .pack16 | .pack32 | .pack64 | .append16 | .append32 | .append64 | .hexdec => DbufWrite s s'
  | .hexenc | .hexencsp | .hexdump => TbufWrite s s'
  | .bccInit | .bccUpdb | .bccUpd => ∃ v, s' = { s with bccAcc := v }
  | .addInit | .addUpdb | .addUpd => ∃ v, s' = { s with addAcc := v }
  | .crcInit _ => ∃ m v, (m = 0x00000001#32 ∨ m = 0x00000002#32) ∧ s' = { s with crcMode := m, crcAcc := v }
  | .crcUpdb | .crcUpd => ∃ v, s' = { s with crcAcc := v }

/-- How a command ends in a next state: with an error report, or with the writes its name allows. -/
def Ends (i : Instr) (s t : State) : Prop :=
  (∃ e info, t = failed (errCodeValue e) (BitVec.ofInt 32 info) s) ∨ ∃ s', Writes i s s' ∧ t = completed s'

theorem Ends.of_complete {i : Instr} {s t : State} {r : Except Stop State} (h : complete r s = .next t)
    (hw : ∀ s', r = .ok s' → Writes i s s') : Ends i s t := by
  rcases complete_eq_next.mp h with ⟨s', hr, rfl⟩ | ⟨e, info, -, rfl⟩
  · exact .inr ⟨s', hw s' hr, rfl⟩
  · exact .inl ⟨e, info, rfl⟩

theorem unpack_writes {n : Nat} {s s' : State} (h : unpack n s = .ok s') : ∃ v, s' = { s with res := v } := by
  unfold unpack at h
  split at h
  · cases h
  · split at h
    · cases h
    · split at h <;> cases h
      exact ⟨_, rfl⟩

theorem growWrite_writes {o n : Nat} {v : DWord} {s s' : State} (h : growWrite o n v s = .ok s') : DbufWrite s s' := by
  by_cases hc : s.cfg.bufCap < o + n
  · rw [growWrite_capacity hc] at h; cases h
  · obtain ⟨m, hg, hw, hb, -⟩ := growWrite_fits (v := v) (Nat.le_of_not_lt hc)
    rw [hg] at h; cases h
    refine ⟨m, _, rfl, hw, hb, fun hd => ?_⟩
    split
    · exact Nat.le_trans (by rw [BitVec.toNat_ofNat]; exact Nat.mod_le _ _) (Nat.le_of_not_lt hc)
    · exact hd

theorem pack_writes {n : Nat} {s s' : State} (h : pack n s = .ok s') : DbufWrite s s' := by
  unfold pack at h
  split at h
  · cases h
  · exact growWrite_writes h

theorem textOut_writes {text : List Byte} {s s' : State} (h : textOut text s = .ok s') : TbufWrite s s' := by
  unfold textOut at h
  split at h
  · cases h
  · rename_i hc
    cases h
    refine ⟨_, _, rfl, fun hw => writeCells_wf _ hw _, fun hb => writeCells_bound _ hb (by omega), ?_⟩
    exact Nat.le_trans (by rw [BitVec.toNat_ofNat]; exact Nat.mod_le _ _) (Nat.le_of_not_lt hc)

theorem encodeRange_writes {text : Nat → List Byte → List Byte} {s s' : State} (h : encodeRange text s = .ok s') :
    TbufWrite s s' := by
  unfold encodeRange at h
  split at h
  · cases h
  · exact textOut_writes h

/-- The digit pairs of HEXDEC give one byte each. -/
theorem decodePairs_length {m : Memory} {i n : Nat} {bs : List Byte} (h : decodePairs m i n = .ok bs) : bs.length = n := by
  induction n generalizing i bs with
  | zero => simp only [decodePairs, Except.ok.injEq] at h; subst h; rfl
  | succ n ih =>
    simp only [decodePairs] at h
    split at h
    · cases h
    · split at h
      · cases h
      · split at h
        · cases h
        · rename_i hr
          cases h
          simp [ih hr]

theorem hexDecode_writes {s s' : State} (h : hexDecode s = .ok s') : DbufWrite s s' := by
  unfold hexDecode at h
  split at h
  · cases h
  · split at h
    · cases h
    · split at h
      · cases h
      · split at h
        · cases h
        · rename_i hc _ bs hd
          cases h
          have hl := decodePairs_length hd
          refine ⟨_, _, rfl, fun hw => writeCells_wf _ hw _, fun hb => writeCells_bound _ hb (by omega), fun _ => ?_⟩
          exact Nat.le_trans (by rw [BitVec.toNat_ofNat]; exact Nat.mod_le _ _) (Nat.le_of_not_lt hc)

/-- What a range command makes of its bytes, when it raises nothing. -/
theorem dataMatch_ok {s s' : State} {f : List Byte → State}
    (h : (match dataBytes s with
      | .error e => (.error e : Except Stop State)
      | .ok (_, bs) => .ok (f bs)) = .ok s') : ∃ bs, RangeHolds s bs ∧ s' = f bs := by
  rcases dataBytes_cases s with ⟨-, hd⟩ | ⟨-, -, hd⟩ | ⟨-, -, hd⟩ | ⟨bs, hr, hd⟩ <;> rw [hd] at h
  · cases h
  · cases h
  · cases h
  · cases h; exact ⟨bs, hr, rfl⟩

/-- Everything a command that answers a next state can have done. -/
theorem exec_next {i : Instr} {s t : State} (h : exec i s = .next t) : Ends i s t := by
  cases i with
  | unpack16 | unpack32 | unpack64 => exact .of_complete h fun _ hr => unpack_writes hr
  | pack16 | pack32 | pack64 => exact .of_complete h fun _ hr => pack_writes hr
  | append16 | append32 | append64 => exact .of_complete h fun _ hr => growWrite_writes hr
  | flip8 | flip16 | flip32 | flip64 | byte2u | bccFin | addFin | crcFin =>
    exact .inr ⟨_, ⟨_, rfl⟩, (Host.Outcome.next.inj h).symm⟩
  | hexchar =>
    refine .of_complete h fun s' hr => ?_
    split at hr
    · cases hr
    · cases hr; exact ⟨_, rfl⟩
  | hexenc | hexencsp | hexdump => exact .of_complete h fun _ hr => encodeRange_writes hr
  | hexdec => exact .of_complete h fun _ hr => hexDecode_writes hr
  | bccInit | bccUpdb | addInit | addUpdb | crcUpdb => exact .inr ⟨_, ⟨_, rfl⟩, (Host.Outcome.next.inj h).symm⟩
  | bccUpd | bccFinb | addUpd | addFinb | crcUpd | crcFinb =>
    exact .of_complete h fun _ hr => by obtain ⟨bs, -, rfl⟩ := dataMatch_ok hr; exact ⟨_, rfl⟩
  | crcInit mode =>
    refine .of_complete h fun s' hr => ?_
    split at hr
    · cases hr
    · rename_i hm
      cases hr
      refine ⟨_, _, ?_, rfl⟩
      clear h; revert mode; decide

/-- The word a pending command runs ends as its command does, or in ILLEGAL_COMMAND. -/
theorem runCommand_next {w : Word} {s t : State} (h : runCommand w s = .next t) :
    (∃ e info, t = failed (errCodeValue e) (BitVec.ofInt 32 info) s) ∨
      ∃ i, decode w = .ok i ∧ ∃ s', Writes i s s' ∧ t = completed s' := by
  unfold runCommand at h
  split at h
  · rename_i i hi
    rcases exec_next h with he | ⟨s', hw, rfl⟩
    · exact .inl he
    · exact .inr ⟨i, hi, s', hw, rfl⟩
  · rw [complete_raise] at h
    cases h
    exact .inl ⟨_, _, rfl⟩

end Sys2Proof.Machine
end

