-- ==== Sys2Proof/Laws/Checksum.lean ====
section
/-! SUPPORT. The arithmetic of the three checksums in the words of the statements. -/

namespace Sys2Proof.Machine

/-- A range command with a negative OFF. -/
theorem dataMatch_off_neg {s : State} {f : List Byte → State} (h : s.off.toInt < 0) :
    complete (match dataBytes s with
      | .error e => .error e
      | .ok (_, bs) => .ok (f bs)) s = .next (failed 0x05#8 1 s) := by
  rw [dataBytes_off_neg h]; exact complete_raise .negativeRange 1 s

/-- A range command with a negative LEN. -/
theorem dataMatch_len_neg {s : State} {f : List Byte → State} (h : 0 ≤ s.off.toInt) (hl : s.len.toInt < 0) :
    complete (match dataBytes s with
      | .error e => .error e
      | .ok (_, bs) => .ok (f bs)) s = .next (failed 0x05#8 2 s) := by
  rw [dataBytes_len_neg h hl]; exact complete_raise .negativeRange 2 s

/-- A range command on a range that holds `bs`. -/
theorem dataMatch_of_rangeHolds {s : State} {f : List Byte → State} {bs : List Byte} (h : RangeHolds s bs) :
    complete (match dataBytes s with
      | .error e => .error e
      | .ok (_, bs) => .ok (f bs)) s = .next (completed (f bs)) := by
  rw [dataBytes_of_rangeHolds h]; rfl

/-- A range command on a range with an unwritten cell. -/
theorem dataMatch_unwritten {s : State} {f : List Byte → State} (h : 0 ≤ s.off.toInt) (hl : 0 ≤ s.len.toInt) {k : Nat}
    (hk : s.off.toInt ≤ k) (hk2 : (k : Int) < min (s.off.toInt + s.len.toInt) s.dlen.toNat)
    (hu : readCell s.dbuf k = none) :
    complete (match dataBytes s with
      | .error e => .error e
      | .ok (_, bs) => .ok (f bs)) s = .fault .unwrittenRead := by
  rw [dataBytes_unwritten h hl hk hk2 hu]; rfl

/-- The additive fold is the sum of the bytes modulo 2^32. -/
theorem addFold_eq (acc : Word) (bs : List Byte) :
    addFold acc bs = BitVec.ofNat 32 (acc.toNat + (bs.map BitVec.toNat).sum) := by
  induction bs generalizing acc with
  | nil => simp [addFold]
  | cons b rest ih =>
    have h : addFold acc (b :: rest) = addFold (addStep acc b) rest := rfl
    have hb := b.isLt
    rw [h, ih]
    apply BitVec.eq_of_toNat_eq
    simp only [addStep, b2u, BitVec.toNat_ofNat, BitVec.toNat_add, BitVec.toNat_setWidth, List.map_cons, List.sum_cons]
    omega

/-- The finalization of an additive sum, widened to RES. -/
theorem addFin_eq (sum : Word) : (addFin sum).setWidth 64 = additiveResult sum := by
  unfold addFin additiveResult
  split
  · rfl
  · apply BitVec.eq_of_toNat_eq
    have h := sum.isLt
    simp only [BitVec.toNat_setWidth, BitVec.toNat_add, BitVec.extractLsb'_toNat, BitVec.toNat_not, Nat.shiftRight_zero,
      BitVec.toNat_ofNat, show (1 : Word).toNat = 1 from rfl]
    omega

/-- The folds over a list in two parts. -/
theorem bccFold_append (acc : Word) (as bs : List Byte) : bccFold acc (as ++ bs) = bccFold (bccFold acc as) bs :=
  List.foldl_append

theorem addFold_append (acc : Word) (as bs : List Byte) : addFold acc (as ++ bs) = addFold (addFold acc as) bs :=
  List.foldl_append

theorem crcFold_append (m : BitVec 2) (crc : Word) (as bs : List Byte) :
    crcFold m crc (as ++ bs) = crcFold m (crcFold m crc as) bs := List.foldl_append

/-- The shift engine, with its eight turns written as an iterate. -/
theorem lfsrStep_eq_crcByte (crc : Word) (b : Byte) : lfsrStep crc b = crcByte crc b := rfl

/-- One turn of the loop is linear over exclusive or. -/
theorem lfsrShift_xor (a b : Word) : lfsrShift (a ^^^ b) = lfsrShift a ^^^ lfsrShift b := by
  simp only [lfsrShift, BitVec.getLsbD_xor, BitVec.ushiftRight_xor_distrib]
  cases a.getLsbD 0 <;> cases b.getLsbD 0 <;>
    simp only [Bool.false_xor, Bool.true_xor, Bool.not_true, Bool.not_false, if_true, if_false, Bool.false_eq_true]
  all_goals ext i hi; simp only [BitVec.getElem_xor]
  all_goals
    generalize (a >>> 1)[i] = x
    generalize (b >>> 1)[i] = y
    try generalize (0x0000A001#32)[i] = z
    revert x y
    first | decide | (revert z; decide)

/-- So are `k` turns. -/
theorem lfsrShifts_xor (k : Nat) (a b : Word) : lfsrShifts k (a ^^^ b) = lfsrShifts k a ^^^ lfsrShifts k b := by
  induction k generalizing a b with
  | zero => rfl
  | succ k ih => simp only [lfsrShifts, lfsrShift_xor, ih]

/-- A turn on a word whose lowest bit is clear is a shift. -/
theorem lfsrShift_even {a : Word} (h : a.getLsbD 0 = false) : lfsrShift a = a >>> 1 := by rw [lfsrShift, h]; rfl

/-- `k` turns on a word whose `k` lowest bits are clear are a shift by `k`. -/
theorem lfsrShifts_clear {k : Nat} {a : Word} (h : ∀ j < k, a.getLsbD j = false) : lfsrShifts k a = a >>> k := by
  induction k generalizing a with
  | zero => simp [lfsrShifts]
  | succ k ih =>
    rw [lfsrShifts, lfsrShift_even (h 0 (by omega)), ih]
    · rw [← BitVec.shiftRight_add, Nat.add_comm]
    · intro j hj; rw [BitVec.getLsbD_ushiftRight]; exact h (1 + j) (by omega)

/-- ALG of the two values CRC_MODE holds. -/
@[simp] theorem algField_table : algField 0x00000001#32 = 0b01#2 := by decide
@[simp] theorem algField_shift : algField 0x00000002#32 = 0b10#2 := by decide

end Sys2Proof.Machine
end

