-- ==== Sys2Proof/Laws/Decode.lean ====
section
/-! SUPPORT. The laws of the command word's fields, of the opcode map and of the encoder. -/

namespace Sys2Proof

/-- A word is its three fields. -/
theorem fields_append (w : Word) : rsvField w ++ modeField w ++ opcField w = w := by
  apply BitVec.eq_of_getLsbD_eq
  intro i hi
  simp only [rsvField, modeField, opcField, BitVec.getLsbD_append, BitVec.getLsbD_extractLsb']
  by_cases h : i < 8
  · simp [h]
  · by_cases h2 : i - 8 < 2
    · simp [h, h2, show 8 + (i - 8) = i by omega]
    · simp [h, h2, show i - 8 - 2 < 22 by omega, show 10 + (i - 8 - 2) = i by omega]

/-- RSV of a command's word is zero. -/
@[simp] theorem rsvField_encode (i : Instr) : rsvField (encode i) = 0 := by
  apply BitVec.eq_of_getLsbD_eq
  intro j hj
  simp only [rsvField, encode, BitVec.getLsbD_extractLsb', BitVec.getLsbD_append]
  simp [hj, show ¬ 10 + j < 8 by omega, show ¬ 10 + j - 8 < 2 by omega]

/-- MODE of a command's word is its mode. -/
@[simp] theorem modeField_encode (i : Instr) : modeField (encode i) = modeOf i := by
  apply BitVec.eq_of_getLsbD_eq
  intro j hj
  simp only [modeField, encode, BitVec.getLsbD_extractLsb', BitVec.getLsbD_append]
  simp [hj, show ¬ 8 + j < 8 by omega]

/-- OPC of a command's word is its opcode. -/
@[simp] theorem opcField_encode (i : Instr) : opcField (encode i) = opcodeOf i := by
  apply BitVec.eq_of_getLsbD_eq
  intro j hj
  simp only [opcField, encode, BitVec.getLsbD_extractLsb', BitVec.getLsbD_append]
  simp [hj]

/-- The opcode map and the OPC column say the same. -/
theorem instrOfOpcode_eq_some {opc : Byte} {mode : BitVec 2} {i : Instr} :
    instrOfOpcode opc mode = some i ↔ opc = opcodeOf i ∧ ∀ m, i = .crcInit m → m = mode := by
  constructor
  · intro h
    unfold instrOfOpcode at h
    split at h <;> simp only [Option.some.injEq, reduceCtorEq] at h <;> subst h <;> simp [opcodeOf]
  · rintro ⟨rfl, h⟩
    cases i <;> simp_all [opcodeOf, instrOfOpcode]

/-- MODE is zero in every command but CRC_INIT. -/
theorem modeOf_eq_zero {i : Instr} (h : ∀ m, i ≠ .crcInit m) : modeOf i = 0 := by
  cases i <;> first | rfl | exact absurd rfl (h _)

/-- CRC_INIT is the only command with its opcode. -/
theorem opcodeOf_eq_crcInit {i : Instr} : opcodeOf i = 0x40#8 ↔ ∃ m, i = .crcInit m := by
  cases i <;> simp [opcodeOf]

end Sys2Proof
end

