-- ==== Sys2Proof/Laws/Packer.lean ====
section
/-! SUPPORT. What the shared byte_packer operations can do. -/

namespace Sys2Proof.Machine

/-- A negative OFF stops an unpack. -/
theorem unpack_off_neg {n : Nat} {s : State} (h : s.off.toInt < 0) : unpack n s = raise .negativeRange 1 := by
  rw [unpack, offsetOperand_neg h]; rfl

/-- An unpack past DLEN. -/
theorem unpack_range {n : Nat} {s : State} (h : 0 ≤ s.off.toInt) (hn : (s.dlen.toNat : Int) < s.off.toInt + n) :
    unpack n s = raise .range (s.off.toInt + n) := by
  rw [unpack, offsetOperand_nonneg h]
  simp only [if_pos (show s.dlen.toNat < s.off.toInt.toNat + n by omega)]
  congr 1; omega

/-- An unpack within DLEN is a read of its cells. -/
theorem unpack_within {n : Nat} {s : State} (h : 0 ≤ s.off.toInt) (hn : s.off.toInt + n ≤ s.dlen.toNat) :
    unpack n s = match readCells s.dbuf s.off.toInt.toNat n with
      | .error e => .error e
      | .ok bs => .ok { s with res := joinBytes bs } := by
  rw [unpack, offsetOperand_nonneg h]
  simp only [if_neg (show ¬ s.dlen.toNat < s.off.toInt.toNat + n by omega)]
  all_goals (cases readCells s.dbuf s.off.toInt.toNat n <;> rfl)

/-- An unpack of cells that hold `bs`. -/
theorem unpack_cells {n : Nat} {s : State} {bs : List Byte} (h : 0 ≤ s.off.toInt)
    (hn : s.off.toInt + n ≤ s.dlen.toNat) (hl : bs.length = n) (hc : CellsHold s.dbuf s.off.toInt.toNat bs) :
    unpack n s = .ok { s with res := joinBytes bs } := by
  rw [unpack_within h hn, readCells_eq_ok.mpr ⟨hl, hc⟩]

/-- An unpack that meets an unwritten cell. -/
theorem unpack_unwritten {n : Nat} {s : State} {k : Nat} (h : 0 ≤ s.off.toInt) (hn : s.off.toInt + n ≤ s.dlen.toNat)
    (hk : s.off.toInt ≤ k) (hk2 : (k : Int) < s.off.toInt + n) (hu : readCell s.dbuf k = none) :
    unpack n s = .error (.fault .unwrittenRead) := by
  have : readCells s.dbuf s.off.toInt.toNat n = .error (.fault .unwrittenRead) :=
    readCells_error.mpr ⟨rfl, k - s.off.toInt.toNat, by omega, by rw [← hu]; congr 1; omega⟩
  rw [unpack_within h hn, this]

/-- RES of an unpack of at most eight bytes, as a number. -/
theorem joinBytes_eq_ofNat (bs : List Byte) : joinBytes bs = BitVec.ofNat 64 (bigEndian bs) := by
  apply BitVec.eq_of_toNat_eq
  rw [joinBytes_toNat, BitVec.toNat_ofNat]

/-- The number that the bytes of a value denote: the value's low bytes. -/
theorem bigEndian_splitBytes (n : Nat) (v : DWord) : bigEndian (splitBytes n v) = v.toNat % 256 ^ n := by
  induction n with
  | zero => simp [splitBytes, bigEndian, Nat.mod_one]
  | succ n ih =>
    have hs : splitBytes (n + 1) v = v.extractLsb' (8 * n) 8 :: splitBytes n v := by
      simp only [splitBytes, List.range_succ_eq_map, List.map_cons, List.map_map]
      congr 1
      apply List.map_congr_left
      intro j hj
      simp only [Function.comp_apply]
      congr 2; omega
    have hf : ∀ (bs : List Byte) (a : Nat),
        bs.foldl (fun v (b : Byte) => 256 * v + b.toNat) a = a * 256 ^ bs.length + bigEndian bs := by
      intro bs
      induction bs with
      | nil => intro a; simp [bigEndian]
      | cons b rest ihb =>
        intro a
        have h0 : bigEndian (b :: rest) = (256 * 0 + b.toNat) * 256 ^ rest.length + bigEndian rest := ihb _
        rw [List.foldl_cons, ihb, h0, List.length_cons, pow_succ]
        ring
    have hb : bigEndian (v.extractLsb' (8 * n) 8 :: splitBytes n v) =
        (v.extractLsb' (8 * n) 8).toNat * 256 ^ n + bigEndian (splitBytes n v) := by
      simp only [bigEndian, List.foldl_cons, Nat.mul_zero, Nat.zero_add]
      rw [hf, splitBytes_length]; rfl
    rw [hs, hb, ih, BitVec.extractLsb'_toNat, Nat.shiftRight_eq_div_pow, pow_mul]
    norm_num
    rw [Nat.pow_succ, Nat.mod_mul]
    ring

/-- A negative OFF stops a pack. -/
theorem pack_off_neg {n : Nat} {s : State} (h : s.off.toInt < 0) : pack n s = raise .negativeRange 1 := by
  rw [pack, offsetOperand_neg h]; rfl

/-- Otherwise a pack is the grow rule at OFF. -/
theorem pack_nonneg {n : Nat} {s : State} (h : 0 ≤ s.off.toInt) : pack n s = growWrite s.off.toInt.toNat n s.val s := by
  rw [pack, offsetOperand_nonneg h]

/-- The hex digits of R121. -/
theorem hexVal_eq_some {c : Half} {v : Byte} : hexVal c = some v ↔ IsHexDigit c.toNat v.toNat := by
  have hv := v.isLt
  unfold hexVal IsHexDigit
  split
  · simp only [Option.some.injEq, ← BitVec.toNat_inj, BitVec.toNat_ofNat]; omega
  split
  · simp only [Option.some.injEq, ← BitVec.toNat_inj, BitVec.toNat_ofNat]; omega
  split
  · simp only [Option.some.injEq, ← BitVec.toNat_inj, BitVec.toNat_ofNat]; omega
  · simp only [reduceCtorEq, false_iff]; omega

/-- What R121 calls INVALID. -/
theorem hexVal_eq_none {c : Half} : hexVal c = none ↔ ¬ ∃ v, IsHexDigit c.toNat v := by
  constructor
  · rintro h ⟨v, hv⟩
    have hv16 : v < 16 := by unfold IsHexDigit at hv; omega
    have : hexVal c = some (BitVec.ofNat 8 v) := hexVal_eq_some.mpr (by
      rw [BitVec.toNat_ofNat, Nat.mod_eq_of_lt (by omega)]; exact hv)
    simp [h] at this
  · intro h
    cases hc : hexVal c with
    | none => rfl
    | some v => exact absurd ⟨_, hexVal_eq_some.mp hc⟩ h

/-- A digit of value `v` parses to `v`. -/
theorem hexVal_of_digit {c : Half} {v : Nat} (h : IsHexDigit c.toNat v) : hexVal c = some (BitVec.ofNat 8 v) := by
  have hv16 : v < 16 := by unfold IsHexDigit at h; omega
  exact hexVal_eq_some.mpr (by rw [BitVec.toNat_ofNat, Nat.mod_eq_of_lt (by omega)]; exact h)

end Sys2Proof.Machine
end

