-- ==== Sys2Proof/Laws/Hex.lean ====
section
/-! SUPPORT. The hex text of the encoders in the words of the statements, and what the shared operations of hex_encoder and
hex_decoder can do. -/

namespace Sys2Proof.Machine

/-- A digit is its place in "0123456789ABCDEF". -/
theorem hexDigit_eq (v : BitVec 4) : hexDigit v = upperDigits.getD v.toNat 0 := by revert v; decide

/-- The two digits of a byte. -/
theorem hex2_eq_twoDigits (b : Byte) : hex2 b = twoDigits b := by revert b; decide

@[simp] theorem twoDigits_length (b : Byte) : (twoDigits b).length = 2 := rfl

/-- Each digit of a byte parses to its nibble. -/
theorem isHexDigit_twoDigits (b : Byte) :
    ∃ c d, twoDigits b = [c, d] ∧ IsHexDigit c.toNat (b.toNat / 16) ∧ IsHexDigit d.toNat (b.toNat % 16) := by
  refine ⟨_, _, rfl, ?_⟩
  have key : ∀ v : Fin 16, IsHexDigit (upperDigits.getD v.val 0).toNat v.val := by unfold IsHexDigit; decide
  exact ⟨key ⟨b.toNat / 16, by have := b.isLt; omega⟩, key ⟨b.toNat % 16, by omega⟩⟩

/-- The eight digits of a word. -/
theorem hex8_eq_eightDigits (w : Word) : hex8 w = eightDigits w := by
  have h : ∀ k, hex2 (w.extractLsb' k 8) =
      [upperDigits.getD (w.toNat / 2 ^ k / 16 % 16) 0, upperDigits.getD (w.toNat / 2 ^ k % 16) 0] := by
    intro k
    rw [hex2_eq_twoDigits, twoDigits, BitVec.extractLsb'_toNat, Nat.shiftRight_eq_div_pow]
    congr 3 <;> omega
  simp only [hex8, h, eightDigits, List.range_succ, List.range_zero, List.nil_append, List.cons_append, List.map_cons,
    List.map_nil]
  norm_num [Nat.div_div_eq_div_mul]

/-- The text of HEXENC. -/
theorem hexText_eq (bs : List Byte) : hexText bs = bs.flatMap twoDigits := by
  simp only [hexText, funext hex2_eq_twoDigits]

/-- The text of HEXENCSP. -/
theorem hexTextSpaced_eq (bs : List Byte) : hexTextSpaced bs = List.intercalate [0x20#8] (bs.map twoDigits) := by
  induction bs with
  | nil => rfl
  | cons b rest ih =>
    cases rest with
    | nil => simp [hexTextSpaced, hex2_eq_twoDigits, List.intercalate]
    | cons c rest =>
      rw [hexTextSpaced, ih, hex2_eq_twoDigits]
      · simp [List.intercalate]
      · simp

/-- Whether a byte is printable, in either spelling. -/
theorem asciiOrDot_eq (b : Byte) : asciiOrDot b = if 0x20#8 ≤ b ∧ b ≤ 0x7E#8 then b else 0x2E#8 := rfl

/-- A dump line. -/
theorem dumpLine_eq (a : Nat) (bs : List Byte) : dumpLine a bs = lineOf a bs := by
  simp only [dumpLine, lineOf, hex8_eq_eightDigits, dumpEntry, hex2_eq_twoDigits, List.range_succ, List.range_zero,
    List.nil_append, List.cons_append, List.map_cons, List.map_nil, List.flatMap_cons, List.flatMap_nil, List.intercalate,
    List.intersperse, List.flatten_cons, List.flatten_nil, List.append_assoc, List.append_nil]
  rfl

/-- The text of HEXDUMP. -/
theorem dumpText_eq (o : Nat) (bs : List Byte) :
    dumpText o bs =
      (List.range ((bs.length + 15) / 16)).flatMap fun l => lineOf (o + 16 * l) ((bs.drop (16 * l)).take 16) := by
  simp only [dumpText, dumpLine_eq]

@[simp] theorem hexText_length (bs : List Byte) : (hexText bs).length = 2 * bs.length := by
  induction bs with
  | nil => rfl
  | cons b rest ih =>
    have h : hexText (b :: rest) = hex2 b ++ hexText rest := rfl
    rw [h, List.length_append, ih]; simp only [hex2, List.length_cons, List.length_nil]; omega

@[simp] theorem hexTextSpaced_length (bs : List Byte) : (hexTextSpaced bs).length = 3 * bs.length - 1 := by
  induction bs with
  | nil => rfl
  | cons b rest ih =>
    cases rest with
    | nil => rfl
    | cons c rest =>
      rw [hexTextSpaced]
      · simp only [hex2, List.length_append, List.length_cons, List.length_nil, ih]; omega
      · simp

/-- The hex field of a dump line has 47 characters, however many bytes the line has. -/
theorem dumpEntries_length (bs : List Byte) : ((List.range 16).flatMap (dumpEntry bs)).length = 47 := by
  have h : ∀ j, (dumpEntry bs j).length = if j < 15 then 3 else 2 := by
    intro j
    rw [dumpEntry, List.length_append]
    cases bs[j]? <;> by_cases hj : j < 15 <;> simp [hj, hex2]
  simp [h, List.range_succ]

/-- A text that fits is written from index 0, and TLEN is its length; no other cell changes. -/
theorem textOut_fits {text : List Byte} {s : State} (h : text.length ≤ s.cfg.txtCap) :
    textOut text s = .ok { s with tbuf := writeCells s.tbuf 0 text, tlen := BitVec.ofNat 32 text.length } := by
  rw [textOut, if_neg (by omega)]

/-- A text that does not fit. -/
theorem textOut_capacity {text : List Byte} {s : State} (h : s.cfg.txtCap < text.length) :
    textOut text s = raise .capacity (text.length : Nat) := by rw [textOut, if_pos h]

/-- An encoder on a range that holds `bs`. -/
theorem encodeRange_of_rangeHolds {text : Nat → List Byte → List Byte} {s : State} {bs : List Byte} (h : RangeHolds s bs) :
    encodeRange text s = textOut (text s.off.toInt.toNat bs) s := by
  rw [encodeRange, dataBytes_of_rangeHolds h]

/-- A digit character at an index of TBUF. -/
theorem hexDigitAt_digit {m : Memory} {i : Nat} {c : Byte} {v : Nat} (hc : readCell m i = some c)
    (hv : IsHexDigit c.toNat v) : hexDigitAt m i = .ok (BitVec.ofNat 8 v) := by
  have hw : (c.setWidth 16).toNat = c.toNat := by
    rw [BitVec.toNat_setWidth]; have := c.isLt; exact Nat.mod_eq_of_lt (by omega)
  rw [hexDigitAt, hc]
  simp only [hexVal_of_digit (c := c.setWidth 16) (v := v) (by rw [hw]; exact hv)]

/-- Any other character there. -/
theorem hexDigitAt_invalid {m : Memory} {i : Nat} {c : Byte} (hc : readCell m i = some c)
    (hv : ¬ ∃ v, IsHexDigit c.toNat v) : hexDigitAt m i = raise .invalidHexChar (i : Nat) := by
  have hw : (c.setWidth 16).toNat = c.toNat := by
    rw [BitVec.toNat_setWidth]; have := c.isLt; exact Nat.mod_eq_of_lt (by omega)
  rw [hexDigitAt, hc]
  simp only [hexVal_eq_none (c := c.setWidth 16) |>.mpr (by rw [hw]; exact hv)]

/-- An unwritten cell there. -/
theorem hexDigitAt_unwritten {m : Memory} {i : Nat} (hc : readCell m i = none) :
    hexDigitAt m i = .error (.fault .unwrittenRead) := by
  rw [hexDigitAt, hc]

/-- What a decode of pairs gives on characters that are all digits: each pair's value. -/
theorem decodePairs_digits {m : Memory} {n : Nat} : ∀ {i : Nat} {cs : List Byte} {vs : List Nat}, cs.length = 2 * n →
    CellsHold m i cs → List.Forall₂ (fun c v => IsHexDigit (BitVec.toNat c) v) cs vs →
    ∃ bs, decodePairs m i n = .ok bs ∧ bs.length = n ∧
      ∀ k < n, bs[k]? = some (BitVec.ofNat 8 (16 * vs.getD (2 * k) 0 + vs.getD (2 * k + 1) 0)) := by
  induction n with
  | zero => intro i cs vs _ _ _; exact ⟨[], rfl, rfl, fun k hk => absurd hk (by omega)⟩
  | succ n ih =>
    intro i cs vs hl hc hv
    match cs, vs, hv with
    | [], _, _ => simp at hl
    | [c], _, _ => simp at hl; omega
    | c :: d :: cs, v :: w :: vs, .cons hcv (.cons hdw hrest) =>
      obtain ⟨hc0, hc⟩ := cellsHold_cons.mp hc
      obtain ⟨hd0, hc⟩ := cellsHold_cons.mp hc
      obtain ⟨bs, hb, hbl, hbk⟩ := ih (i := i + 2) (by simp only [List.length_cons] at hl; omega) hc hrest
      have h16 : v < 16 ∧ w < 16 := by unfold IsHexDigit at hcv hdw; omega
      have hor : (BitVec.ofNat 8 v <<< 4) ||| BitVec.ofNat 8 w = BitVec.ofNat 8 (16 * v + w) := by
        obtain ⟨h1, h2⟩ := h16
        have key : ∀ a b : Fin 16, (BitVec.ofNat 8 a.val <<< 4) ||| BitVec.ofNat 8 b.val = BitVec.ofNat 8 (16 * a.val + b.val) := by
          decide
        exact key ⟨v, h1⟩ ⟨w, h2⟩
      refine ⟨BitVec.ofNat 8 (16 * v + w) :: bs, ?_, by simp [hbl], ?_⟩
      · rw [decodePairs, hexDigitAt_digit hc0 hcv]
        simp only [hexDigitAt_digit hd0 hdw, hb, hor]
      · intro k hk
        cases k with
        | zero => rfl
        | succ k =>
          rw [List.getElem?_cons_succ, hbk k (by omega)]
          simp only [show 2 * (k + 1) = 2 * k + 1 + 1 by omega, List.getD_cons_succ]

/-- A decode of pairs reads the text of HEXENC back. -/
theorem decodePairs_hexText {m : Memory} {i : Nat} {bs : List Byte} (h : CellsHold m i (hexText bs)) :
    decodePairs m i bs.length = .ok bs := by
  induction bs generalizing i with
  | nil => rfl
  | cons b rest ih =>
    have ht : hexText (b :: rest) = twoDigits b ++ hexText rest := by rw [hexText_eq, hexText_eq, List.flatMap_cons]
    obtain ⟨c, d, hcd, hc, hd⟩ := isHexDigit_twoDigits b
    rw [ht, hcd, List.cons_append, List.cons_append] at h
    obtain ⟨h0, h⟩ := cellsHold_cons.mp h
    obtain ⟨h1, h⟩ := cellsHold_cons.mp h
    have key : ∀ b : Byte, (BitVec.ofNat 8 (b.toNat / 16) <<< 4) ||| BitVec.ofNat 8 (b.toNat % 16) = b := by decide
    rw [List.length_cons, decodePairs, hexDigitAt_digit h0 hc]
    simp only [hexDigitAt_digit h1 hd, ih h, key]

/-- Where a decode of pairs stops when the characters `cs` are digits and the one after them stops a digit's read. -/
theorem decodePairs_stops {m : Memory} {n : Nat} {e : Stop} : ∀ {i : Nat} {cs : List Byte}, cs.length < 2 * n →
    CellsHold m i cs → (∀ c ∈ cs, ∃ v, IsHexDigit c.toNat v) → hexDigitAt m (i + cs.length) = .error e →
    decodePairs m i n = .error e := by
  induction n with
  | zero => intro i cs h; omega
  | succ n ih =>
    intro i cs hl hc hv he
    match cs with
    | [] =>
      rw [List.length_nil, Nat.add_zero] at he
      rw [decodePairs, he]
    | [c] =>
      obtain ⟨v, hv⟩ := hv c (by simp)
      rw [decodePairs, hexDigitAt_digit (cellsHold_cons.mp hc).1 hv]
      simp only [List.length_cons, List.length_nil, Nat.zero_add] at he
      simp only [he]
    | c :: d :: cs =>
      obtain ⟨hc0, hc⟩ := cellsHold_cons.mp hc
      obtain ⟨hd0, hc⟩ := cellsHold_cons.mp hc
      obtain ⟨v, hcv⟩ := hv c (by simp)
      obtain ⟨w, hdw⟩ := hv d (by simp)
      have := ih (i := i + 2) (cs := cs) (by simp only [List.length_cons] at hl; omega) hc
        (fun c hc => hv c (by simp [hc])) (by rw [← he]; simp only [List.length_cons]; congr 1; omega)
      rw [decodePairs, hexDigitAt_digit hc0 hcv]
      simp only [hexDigitAt_digit hd0 hdw, this]

/-- A negative OFF stops HEXDEC. -/
theorem hexDecode_off_neg {s : State} (h : s.off.toInt < 0) : hexDecode s = raise .negativeRange 1 := by
  rw [hexDecode, offsetOperand_neg h]; rfl

/-- HEXDEC's usable length, `m` of R176. -/
theorem usableLength_eq {s : State} (h : 0 ≤ s.off.toInt) :
    usableLength s.off.toInt.toNat s = min (s.off.toInt + s.len.toInt) s.tlen.toNat - s.off.toInt := by
  rw [usableLength, clampEnd, Int.toNat_of_nonneg h]

/-- HEXDEC of a usable length that is not positive and even. -/
theorem hexDecode_length {s : State} {m : Int} (h : 0 ≤ s.off.toInt)
    (hm : m = min (s.off.toInt + s.len.toInt) s.tlen.toNat - s.off.toInt) (hl : m ≤ 0 ∨ m % 2 = 1) :
    hexDecode s = raise .invalidHexLength m := by
  rw [hexDecode, offsetOperand_nonneg h]
  simp only [usableLength_eq h, ← hm, if_pos hl]

/-- HEXDEC of more bytes than fit. -/
theorem hexDecode_capacity {s : State} {m : Int} (h : 0 ≤ s.off.toInt)
    (hm : m = min (s.off.toInt + s.len.toInt) s.tlen.toNat - s.off.toInt) (h0 : 0 < m) (h2 : m % 2 = 0)
    (hc : s.cfg.bufCap < m / 2) : hexDecode s = raise .capacity (m / 2) := by
  rw [hexDecode, offsetOperand_nonneg h]
  simp only [usableLength_eq h, ← hm, if_neg (show ¬ (m ≤ 0 ∨ m % 2 = 1) by omega)]
  rw [if_pos (by omega)]; congr 1; omega

/-- HEXDEC otherwise: the pairs decide. -/
theorem hexDecode_pairs {s : State} {m : Int} (h : 0 ≤ s.off.toInt)
    (hm : m = min (s.off.toInt + s.len.toInt) s.tlen.toNat - s.off.toInt) (h0 : 0 < m) (h2 : m % 2 = 0)
    (hc : m / 2 ≤ s.cfg.bufCap) :
    hexDecode s = match decodePairs s.tbuf s.off.toInt.toNat (m.toNat / 2) with
      | .error e => .error e
      | .ok bs => .ok { s with dbuf := writeCells s.dbuf 0 bs, dlen := BitVec.ofNat 32 (m.toNat / 2) } := by
  rw [hexDecode, offsetOperand_nonneg h]
  simp only [usableLength_eq h, ← hm, if_neg (show ¬ (m ≤ 0 ∨ m % 2 = 1) by omega)]
  rw [if_neg (by omega)]
  all_goals (cases decodePairs s.tbuf s.off.toInt.toNat (m.toNat / 2) <;> rfl)

end Sys2Proof.Machine
end

