-- ==== Sys2Proof/Laws/HostBus.lean ====
section
/-! SUPPORT. What the host's accesses and actions can do. -/

namespace Sys2Proof.Machine

/-- A cell target lies within its buffer. -/
def Target.Within (c : Config) (t : Target) : Prop :=
  match t with
  | .dcell i => i < c.bufCap
  | .tcell i => i < c.txtCap
  | .reg _ => True
  | .reserved => True

/-- The offsets of R21 and the registers at them are the same map. -/
@[simp] theorem regAt_regOffset (r : Reg) : regAt (regOffset r) = some r := by cases r <;> rfl

/-- Every register lies in the register file, at a multiple of 4. -/
theorem regOffset_aligned (r : Reg) : regOffset r < 0x1000 ∧ regOffset r % 4 = 0 := by cases r <;> decide

/-- Two registers have two offsets. -/
theorem regAt_eq_some {o : Nat} {r : Reg} : regAt o = some r ↔ o = regOffset r := by
  constructor
  · intro h
    unfold regAt at h
    split at h <;> simp only [Option.some.injEq, reduceCtorEq] at h <;> subst h <;> rfl
  · rintro rfl; exact regAt_regOffset r

/-- An address within the window is its offset. -/
theorem locate_window {c : Config} {o width : Nat} (h : o < 0x100000) :
    locate c (c.devBase + o) width = locateOffset c o width := by
  rw [locate, if_neg (by omega), Nat.add_sub_cancel_left]

/-- The access of a register. -/
theorem locateOffset_reg (c : Config) (r : Reg) : locateOffset c (regOffset r) 32 = .ok (.reg r) := by
  have h := regOffset_aligned r
  simp only [locateOffset, h, and_self, if_true, regAt_regOffset]

/-- What an access reaches lies within its buffer. -/
theorem locateOffset_within {c : Config} {o width : Nat} {t : Target} (h : locateOffset c o width = .ok t) :
    t.Within c := by
  unfold locateOffset at h
  repeat' split at h
  all_goals cases h
  all_goals simp only [Target.Within]
  all_goals assumption

theorem locate_within {c : Config} {addr width : Nat} {t : Target} (h : locate c addr width = .ok t) : t.Within c := by
  unfold locate at h
  split at h
  · cases h
  · exact locateOffset_within h

/-- R62 says which accesses have a target. -/
theorem locateOffset_admitted {c : Config} {o width : Nat} :
    (∃ t, locateOffset c o width = .ok t) ↔ AdmittedAccess o width := by
  unfold locateOffset AdmittedAccess
  constructor
  · rintro ⟨t, h⟩
    repeat' split at h
    all_goals cases h
    all_goals omega
  · intro h
    repeat' split
    all_goals first | exact ⟨_, rfl⟩ | (exfalso; omega)

/-- An access that R62 does not admit is refused as such. -/
theorem locateOffset_refused {c : Config} {o width : Nat} (h : ¬ AdmittedAccess o width) :
    locateOffset c o width = .error .hostAccess := by
  cases hl : locateOffset c o width with
  | ok t => exact absurd (locateOffset_admitted.mp ⟨t, hl⟩) h
  | error r =>
    unfold locateOffset at hl
    repeat' split at hl
    all_goals (cases hl <;> rfl)

/-- STATUS alone is at offset 4. -/
theorem locateOffset_status {c : Config} {o width : Nat} {t : Target} (h : locateOffset c o width = .ok t) :
    t = .reg .status ↔ o = 0x004 := by
  unfold locateOffset at h
  constructor
  · rintro rfl
    repeat' split at h
    all_goals cases h
    rename_i hr
    exact regAt_eq_some.mp hr
  · rintro rfl
    repeat' split at h
    all_goals cases h
    all_goals first | omega | simp_all [regAt]

/-- A host read changes what the host has seen and the counter of draws, and nothing else. -/
theorem hostRead_next {addr width : Nat} {s t : State} (h : hostRead addr width s = .next t) :
    ∃ l d, t = { s with host := { s.host with seen := l }, draws := d } := by
  unfold hostRead at h
  split at h
  · cases h
  · split at h
    · cases h; exact ⟨_, _, rfl⟩
    · split at h
      · cases h
      · cases h; exact ⟨_, s.draws, rfl⟩

/-- A host write that goes on reaches a target of the idle device. -/
theorem hostWrite_next {addr width : Nat} {data : Word} {s t : State} (h : hostWrite addr width data s = .next t) :
    busyBit s.status = false ∧ ∃ tg : Target, tg.Within s.cfg ∧ t = writeTarget tg data s := by
  unfold hostWrite at h
  split at h
  · cases h
  · rename_i tg hl
    split at h
    · cases h
    · rename_i hb
      cases h
      exact ⟨by simpa using hb, tg, locate_within hl, rfl⟩

/-- A branch changes the host's pc alone. -/
theorem hostGoto_next {l : Nat} {s t : State} (h : hostGoto l s = .next t) : ∃ ag, t = { s with host := ag } := by
  unfold hostGoto at h
  split at h
  · cases h
  · cases h; exact ⟨_, rfl⟩

/-- Everything a host step that goes on can have done: something of the host's own, an RST, or a write to the idle device. -/
theorem hostStep_next {s t : State} (h : hostStep s = .next t) :
    (∃ ag d, t = { s with host := ag, draws := d }) ∨
    (s.host.prog[s.host.pc]? = some .reset ∧ ∃ ag, t = applyReset { s with host := ag }) ∨
    (busyBit s.status = false ∧ ∃ ag, ∃ tg : Target, ∃ data, tg.Within s.cfg ∧
      t = writeTarget tg data { s with host := ag }) := by
  unfold hostStep at h
  split at h
  · cases h; exact .inl ⟨s.host, s.draws, rfl⟩
  · split at h
    · cases h; exact .inl ⟨s.host, s.draws, rfl⟩
    · rename_i op hop
      cases op with
      | write addr width data =>
        obtain ⟨hb, tg, hw, rfl⟩ := hostWrite_next h
        exact .inr (.inr ⟨hb, _, tg, data, hw, rfl⟩)
      | read addr width =>
        obtain ⟨l, d, rfl⟩ := hostRead_next h
        exact .inl ⟨_, d, rfl⟩
      | label l => cases h; exact .inl ⟨_, s.draws, rfl⟩
      | branch nonzero r hi lo l =>
        simp only [hostAction] at h
        split at h
        · cases h
        · split at h
          · obtain ⟨ag, rfl⟩ := hostGoto_next h; exact .inl ⟨ag, s.draws, rfl⟩
          · cases h; exact .inl ⟨_, s.draws, rfl⟩
      | stopIf r hi lo =>
        simp only [hostAction] at h
        split at h
        · cases h
        · split at h <;> cases h
          · exact .inl ⟨_, s.draws, rfl⟩
          · exact .inl ⟨_, s.draws, rfl⟩
      | reset => cases h; exact .inr (.inl ⟨hop, _, rfl⟩)

end Sys2Proof.Machine
end

