-- ==== Sys2Proof/Laws/Independence.lean ====
section
/-! SUPPORT. No command reads or writes the host's part of the state or the counter of draws. -/

namespace Sys2Proof.Machine

/-- The state with the host's part and the counter of draws replaced. -/
def withHost (h : HostAgent) (d : Nat) (s : State) : State := { s with host := h, draws := d }

/-- An outcome with the host's part and the counter of draws of its next state replaced. -/
def outcomeWithHost (h : HostAgent) (d : Nat) (o : Host.Outcome State Fault Refusal) : Host.Outcome State Fault Refusal :=
  match o with
  | .next t => .next (withHost h d t)
  | .fault f => .fault f
  | .refused r => .refused r

/-- What a command's pseudocode gives, with the host's part and the counter of draws replaced. -/
def resultWithHost (h : HostAgent) (d : Nat) (r : Except Stop State) : Except Stop State :=
  match r with
  | .ok t => .ok (withHost h d t)
  | .error e => .error e

theorem complete_withHost (h : HostAgent) (d : Nat) (r : Except Stop State) (s : State) :
    complete (resultWithHost h d r) (withHost h d s) = outcomeWithHost h d (complete r s) := by
  cases r with
  | ok t => rfl
  | error e => cases e <;> rfl

theorem offsetOperand_withHost (h : HostAgent) (d : Nat) (s : State) : offsetOperand (withHost h d s) = offsetOperand s := rfl
theorem dataBytes_withHost (h : HostAgent) (d : Nat) (s : State) : dataBytes (withHost h d s) = dataBytes s := rfl

theorem growWrite_withHost (h : HostAgent) (d : Nat) (o n : Nat) (v : DWord) (s : State) :
    growWrite o n v (withHost h d s) = resultWithHost h d (growWrite o n v s) := by
  unfold growWrite withHost
  simp only
  split
  · rfl
  · split <;> rfl

theorem unpack_withHost (h : HostAgent) (d : Nat) (n : Nat) (s : State) :
    unpack n (withHost h d s) = resultWithHost h d (unpack n s) := by
  unfold unpack
  rw [offsetOperand_withHost]
  cases offsetOperand s with
  | error e => rfl
  | ok o =>
    change (if s.dlen.toNat < o + n then raise .range (o + n : Nat) else _) =
      resultWithHost h d (if s.dlen.toNat < o + n then _ else _)
    by_cases hc : s.dlen.toNat < o + n
    · rw [if_pos hc, if_pos hc]; rfl
    · rw [if_neg hc, if_neg hc, show (withHost h d s).dbuf = s.dbuf from rfl]; cases readCells s.dbuf o n <;> rfl

theorem pack_withHost (h : HostAgent) (d : Nat) (n : Nat) (s : State) :
    pack n (withHost h d s) = resultWithHost h d (pack n s) := by
  unfold pack
  rw [offsetOperand_withHost]
  cases offsetOperand s with
  | error e => rfl
  | ok o => exact growWrite_withHost h d o n s.val s

theorem encodeRange_withHost (h : HostAgent) (d : Nat) (text : Nat → List Byte → List Byte) (s : State) :
    encodeRange text (withHost h d s) = resultWithHost h d (encodeRange text s) := by
  unfold encodeRange
  rw [dataBytes_withHost]
  cases dataBytes s with
  | error e => rfl
  | ok p =>
    change (if s.cfg.txtCap < (text p.1 p.2).length then raise .capacity ((text p.1 p.2).length : Nat) else _) =
      resultWithHost h d (if s.cfg.txtCap < (text p.1 p.2).length then _ else _)
    by_cases hc : s.cfg.txtCap < (text p.1 p.2).length
    · rw [if_pos hc, if_pos hc]; rfl
    · rw [if_neg hc, if_neg hc]; rfl

theorem hexDecode_withHost (h : HostAgent) (d : Nat) (s : State) :
    hexDecode (withHost h d s) = resultWithHost h d (hexDecode s) := by
  unfold hexDecode
  rw [offsetOperand_withHost]
  cases offsetOperand s with
  | error e => rfl
  | ok o =>
    simp only [show usableLength o (withHost h d s) = usableLength o s from rfl, show (withHost h d s).cfg = s.cfg from rfl,
      show (withHost h d s).tbuf = s.tbuf from rfl]
    split
    · rfl
    · split
      · rfl
      · cases decodePairs s.tbuf o ((usableLength o s).toNat / 2) <;> rfl

/-- No command reads or writes the host's part or the counter of draws. -/
theorem exec_withHost (i : Instr) (h : HostAgent) (d : Nat) (s : State) :
    exec i (withHost h d s) = outcomeWithHost h d (exec i s) := by
  cases i with
  | unpack16 | unpack32 | unpack64 => exact (congrArg (complete · _) (unpack_withHost h d _ s)).trans (complete_withHost h d _ s)
  | pack16 | pack32 | pack64 => exact (congrArg (complete · _) (pack_withHost h d _ s)).trans (complete_withHost h d _ s)
  | append16 | append32 | append64 =>
    exact (congrArg (complete · _) (growWrite_withHost h d _ _ _ s)).trans (complete_withHost h d _ s)
  | hexenc | hexencsp | hexdump =>
    exact (congrArg (complete · _) (encodeRange_withHost h d _ s)).trans (complete_withHost h d _ s)
  | hexdec => exact (congrArg (complete · _) (hexDecode_withHost h d s)).trans (complete_withHost h d _ s)
  | bccUpd | bccFinb | addUpd | addFinb | crcUpd | crcFinb =>
    simp only [exec, execBccUpd, execBccFinb, execAddUpd, execAddFinb, execCrcUpd, execCrcFinb, dataBytes_withHost]
    cases dataBytes s with
    | error e => cases e <;> rfl
    | ok p => rfl
  | hexchar =>
    simp only [exec, execHexchar, show valHalf (withHost h d s) = valHalf s from rfl]
    cases hexVal (valHalf s) <;> rfl
  | crcInit mode =>
    simp only [exec, execCrcInit]
    split <;> rfl
  | _ => rfl

/-- Nor does the command engine's step on a word. -/
theorem runCommand_withHost (w : Word) (h : HostAgent) (d : Nat) (s : State) :
    runCommand w (withHost h d s) = outcomeWithHost h d (runCommand w s) := by
  unfold runCommand
  cases decode w with
  | error r => rfl
  | ok i => exact exec_withHost i h d s

end Sys2Proof.Machine
end

