-- ==== Sys2Proof/Laws/Invariant.lean ====
section
/-! SUPPORT. What keeps the invariant, operation by operation. -/

namespace Sys2Proof.Machine

/-- The invariant says nothing of the host or of the counter of draws. -/
theorem Inv.host {s : State} (h : Inv s) (ag : HostAgent) (d : Nat) : Inv { s with host := ag, draws := d } :=
  ⟨h.1, h.2, h.3, h.4, h.5, h.6, h.7, h.8, h.9, h.10, h.11, h.12, h.13, h.14⟩

/-- The invariant says nothing of how long a command stays pending. -/
theorem Inv.left {s : State} (h : Inv s) {p : Pending} (hp : s.pending = some p) (k : Nat) :
    Inv { s with pending := some ⟨p.word, k⟩ } := by
  refine ⟨h.1, h.2, h.3, h.4, h.5, h.6, h.7, h.8, h.9, h.10, h.11, h.12, ?_, ?_⟩
  · have := h.busy_iff_pending; rw [hp] at this; exact this
  · intro q hq; cases hq; exact h.pending_fresh p hp

/-- Clearing BUSY of a STATUS that is BUSY alone leaves 0. -/
theorem Inv.completed {s : State} (h : Inv s) (hp : s.pending.isSome) : Inv (completed s) := by
  obtain ⟨p, hp⟩ := Option.isSome_iff_exists.mp hp
  obtain ⟨-, hs, he⟩ := h.pending_fresh p hp
  refine ⟨h.1, h.2, h.3, h.4, h.5, h.6, h.7, h.8, ?_, ?_, ?_, ?_, ?_, ?_⟩ <;>
    simp only [completed_status, completed_pending, completed_errInfo, hs, he]
  all_goals first | decide | simp

/-- An error report keeps the invariant. -/
theorem Inv.failed {s : State} (h : Inv s) (e : ErrCode) (info : Word) : Inv (failed (errCodeValue e) info s) := by
  obtain ⟨h0, h1, h2, h3⟩ := failed_status_fields (errCodeValue e) info s
  refine ⟨h.1, h.2, h.3, h.4, h.5, h.6, h.7, h.8, ?_, ?_, ?_, ?_, ?_, ?_⟩
  · rw [h3]; exact h.status_reserved
  · rw [h2]; cases e <;> decide
  · rw [h1, h2]; cases e <;> decide
  · rw [h1]; simp
  · rw [h0]; rfl
  · intro p hp; cases hp

/-- What a command writes keeps the invariant, up to its completion. -/
theorem Inv.writes {i : Instr} {s s' : State} (h : Inv s) (hw : Writes i s s') : Inv s' := by
  have res : ∀ v, Inv { s with res := v } := fun v =>
    ⟨h.1, h.2, h.3, h.4, h.5, h.6, h.7, h.8, h.9, h.10, h.11, h.12, h.13, h.14⟩
  have dbuf : DbufWrite s s' → Inv s' := by
    rintro ⟨m, d, rfl, h1, h2, h3⟩
    exact ⟨h.1, h1 h.2, h.3, h2 h.4, h.5, h3 h.6, h.7, h.8, h.9, h.10, h.11, h.12, h.13, h.14⟩
  have tbuf : TbufWrite s s' → Inv s' := by
    rintro ⟨m, d, rfl, h1, h2, h3⟩
    exact ⟨h.1, h.2, h1 h.3, h.4, h2 h.5, h.6, h3, h.8, h.9, h.10, h.11, h.12, h.13, h.14⟩
  cases i <;> first
    | exact dbuf hw
    | exact tbuf hw
    | (obtain ⟨v, rfl⟩ := hw
       exact ⟨h.1, h.2, h.3, h.4, h.5, h.6, h.7, h.8, h.9, h.10, h.11, h.12, h.13, h.14⟩)
    | (obtain ⟨m, v, hm, rfl⟩ := hw
       exact ⟨h.1, h.2, h.3, h.4, h.5, h.6, h.7, hm, h.9, h.10, h.11, h.12, h.13, h.14⟩)

/-- A command keeps whether anything is pending until it completes. -/
theorem Writes.pending {i : Instr} {s s' : State} (hw : Writes i s s') : s'.pending = s.pending := by
  cases i <;> first
    | (obtain ⟨m, d, rfl, -⟩ := hw; rfl)
    | (obtain ⟨v, rfl⟩ := hw)
    | (obtain ⟨m, v, -, rfl⟩ := hw; rfl)

/-- A write of the host to the idle device keeps the invariant. -/
theorem Inv.writeTarget {s : State} (h : Inv s) {tg : Target}
    (ht : tg.Within s.cfg) (data : Word) : Inv (writeTarget tg data s) := by
  cases tg with
  | dcell i =>
    exact ⟨h.1, writeCell_wf h.2 _ _, h.3, writeCell_bound h.4 ht _, h.5, h.6, h.7, h.8, h.9, h.10, h.11, h.12, h.13, h.14⟩
  | tcell i =>
    exact ⟨h.1, h.2, writeCell_wf h.3 _ _, h.4, writeCell_bound h.5 ht _, h.6, h.7, h.8, h.9, h.10, h.11, h.12, h.13, h.14⟩
  | reserved => exact h
  | reg r =>
    have hmin : ∀ a b : Nat, (BitVec.ofNat 32 (min a b)).toNat ≤ b := fun a b => by
      rw [BitVec.toNat_ofNat]; exact (Nat.mod_le _ _).trans (Nat.min_le_right _ _)
    cases r with
    | cmd =>
      refine ⟨h.1, h.2, h.3, h.4, h.5, h.6, h.7, h.8, ?_, ?_, ?_, ?_, ?_, ?_⟩
      case refine_6 => intro p hp; cases hp; exact ⟨rfl, rfl, rfl⟩
      all_goals simp only [Machine.writeTarget, writeReg, startCommand_status, startCommand_pending, startCommand_errInfo,
        statusBusy]
      all_goals first | decide | simp
    | dlen => exact ⟨h.1, h.2, h.3, h.4, h.5, hmin _ _, h.7, h.8, h.9, h.10, h.11, h.12, h.13, h.14⟩
    | tlen => exact ⟨h.1, h.2, h.3, h.4, h.5, h.6, hmin _ _, h.8, h.9, h.10, h.11, h.12, h.13, h.14⟩
    | off | len | valLo | valHi =>
      exact ⟨h.1, h.2, h.3, h.4, h.5, h.6, h.7, h.8, h.9, h.10, h.11, h.12, h.13, h.14⟩
    | status | resLo | resHi | bccAcc | addAcc | crcAcc | crcMode | errInfo => exact h

end Sys2Proof.Machine
end

