-- ==== Sys2Proof/Laws/PerInstr.lean ====
section
/-! SUPPORT. Statements made for each command by name (LAWS.json "per_instruction"). -/

namespace Sys2Proof.Laws

/-- The word of a command meets none of the conditions by which R94 calls a word illegal: RSV is zero, OPC is in the
opcode map, and MODE is zero unless OPC is CRC_INIT's. -/
def LegalWord.Statement (i : Instr) : Prop :=
  rsvField (encode i) = 0 ∧ (instrOfOpcode (opcField (encode i)) (modeField (encode i))).isSome ∧
    (modeField (encode i) = 0 ∨ opcField (encode i) = 0x40#8)

theorem LegalWord.unpack16 : LegalWord.Statement .unpack16 := by
  unfold LegalWord.Statement; decide

theorem LegalWord.unpack32 : LegalWord.Statement .unpack32 := by
  unfold LegalWord.Statement; decide

theorem LegalWord.unpack64 : LegalWord.Statement .unpack64 := by
  unfold LegalWord.Statement; decide

theorem LegalWord.pack16 : LegalWord.Statement .pack16 := by
  unfold LegalWord.Statement; decide

theorem LegalWord.pack32 : LegalWord.Statement .pack32 := by
  unfold LegalWord.Statement; decide

theorem LegalWord.pack64 : LegalWord.Statement .pack64 := by
  unfold LegalWord.Statement; decide

theorem LegalWord.append16 : LegalWord.Statement .append16 := by
  unfold LegalWord.Statement; decide

theorem LegalWord.append32 : LegalWord.Statement .append32 := by
  unfold LegalWord.Statement; decide

theorem LegalWord.append64 : LegalWord.Statement .append64 := by
  unfold LegalWord.Statement; decide

theorem LegalWord.flip8 : LegalWord.Statement .flip8 := by
  unfold LegalWord.Statement; decide

theorem LegalWord.flip16 : LegalWord.Statement .flip16 := by
  unfold LegalWord.Statement; decide

theorem LegalWord.flip32 : LegalWord.Statement .flip32 := by
  unfold LegalWord.Statement; decide

theorem LegalWord.flip64 : LegalWord.Statement .flip64 := by
  unfold LegalWord.Statement; decide

theorem LegalWord.byte2u : LegalWord.Statement .byte2u := by
  unfold LegalWord.Statement; decide

theorem LegalWord.hexchar : LegalWord.Statement .hexchar := by
  unfold LegalWord.Statement; decide

theorem LegalWord.hexenc : LegalWord.Statement .hexenc := by
  unfold LegalWord.Statement; decide

theorem LegalWord.hexencsp : LegalWord.Statement .hexencsp := by
  unfold LegalWord.Statement; decide

theorem LegalWord.hexdump : LegalWord.Statement .hexdump := by
  unfold LegalWord.Statement; decide

theorem LegalWord.hexdec : LegalWord.Statement .hexdec := by
  unfold LegalWord.Statement; decide

theorem LegalWord.bccInit : LegalWord.Statement .bccInit := by
  unfold LegalWord.Statement; decide

theorem LegalWord.bccUpdb : LegalWord.Statement .bccUpdb := by
  unfold LegalWord.Statement; decide

theorem LegalWord.bccUpd : LegalWord.Statement .bccUpd := by
  unfold LegalWord.Statement; decide

theorem LegalWord.bccFin : LegalWord.Statement .bccFin := by
  unfold LegalWord.Statement; decide

theorem LegalWord.bccFinb : LegalWord.Statement .bccFinb := by
  unfold LegalWord.Statement; decide

theorem LegalWord.addInit : LegalWord.Statement .addInit := by
  unfold LegalWord.Statement; decide

theorem LegalWord.addUpdb : LegalWord.Statement .addUpdb := by
  unfold LegalWord.Statement; decide

theorem LegalWord.addUpd : LegalWord.Statement .addUpd := by
  unfold LegalWord.Statement; decide

theorem LegalWord.addFin : LegalWord.Statement .addFin := by
  unfold LegalWord.Statement; decide

theorem LegalWord.addFinb : LegalWord.Statement .addFinb := by
  unfold LegalWord.Statement; decide

theorem LegalWord.crcInit (mode : BitVec 2) : LegalWord.Statement (.crcInit mode) := by
  revert mode; unfold LegalWord.Statement; decide

theorem LegalWord.crcUpdb : LegalWord.Statement .crcUpdb := by
  unfold LegalWord.Statement; decide

theorem LegalWord.crcUpd : LegalWord.Statement .crcUpd := by
  unfold LegalWord.Statement; decide

theorem LegalWord.crcFin : LegalWord.Statement .crcFin := by
  unfold LegalWord.Statement; decide

theorem LegalWord.crcFinb : LegalWord.Statement .crcFinb := by
  unfold LegalWord.Statement; decide

end Sys2Proof.Laws
end

