-- ==== Sys2Proof/Laws/Run.lean ====
section
/-! SUPPORT. Running the machine step by step. -/

namespace Sys2Proof.Machine

/-- A run goes through its first step. -/
theorem core_run_succ {s t : State} (h : step s = .next t) (k : Nat) : core.run (k + 1) s = core.run k t := by
  have h' : core.step s = .next t := h
  simp only [Host.Core.run, h']

/-- A run of one step ends as the step does. -/
theorem core_run_one (s : State) : core.run 1 s = step s := by
  simp only [Host.Core.run]
  generalize h : core.step s = r
  have h' : step s = r := h
  rw [h']
  cases r <;> rfl

/-- One run after another is one run. -/
theorem core_run_trans {s t u : State} {n m : Nat} (h : core.run n s = .next t) (h2 : core.run m t = .next u) :
    core.run (n + m) s = .next u := by
  induction n generalizing s with
  | zero => cases h; simpa using h2
  | succ n ih =>
    rw [Nat.succ_add]
    cases hs : step s with
    | next s' => rw [core_run_succ hs] at h ⊢; exact ih h
    | fault f => have h' : core.step s = .fault f := hs; simp only [Host.Core.run, h'] at h; cases h
    | refused r => have h' : core.step s = .refused r := hs; simp only [Host.Core.run, h'] at h; cases h

end Sys2Proof.Machine
end

