-- ==== Sys2Proof/Tests/Slice0.lean ====
section
/-! SUPPORT. Tests of the model on the spec's own words and vectors (spec/30_encoding.md R93, spec/95_test_vectors.md), and a
witness for the hypotheses of every statement in Certificates/Slice0/Obligations.lean. -/

namespace Sys2Proof.Machine

/-! ## Decoding: RSV (22 bits), MODE (2 bits) and OPC (8 bits) as R90 and R93 give them -/

theorem test_decode_packer :
    decode (0b0000000000000000000000#22 ++ 0b00#2 ++ 0b00000001#8) = .ok .unpack16 ∧
    decode (0b0000000000000000000000#22 ++ 0b00#2 ++ 0b00000010#8) = .ok .unpack32 ∧
    decode (0b0000000000000000000000#22 ++ 0b00#2 ++ 0b00000011#8) = .ok .unpack64 ∧
    decode (0b0000000000000000000000#22 ++ 0b00#2 ++ 0b00000100#8) = .ok .pack16 ∧
    decode (0b0000000000000000000000#22 ++ 0b00#2 ++ 0b00000101#8) = .ok .pack32 ∧
    decode (0b0000000000000000000000#22 ++ 0b00#2 ++ 0b00000110#8) = .ok .pack64 ∧
    decode (0b0000000000000000000000#22 ++ 0b00#2 ++ 0b00000111#8) = .ok .append16 ∧
    decode (0b0000000000000000000000#22 ++ 0b00#2 ++ 0b00001000#8) = .ok .append32 ∧
    decode (0b0000000000000000000000#22 ++ 0b00#2 ++ 0b00001001#8) = .ok .append64 ∧
    decode (0b0000000000000000000000#22 ++ 0b00#2 ++ 0b00001010#8) = .ok .flip8 ∧
    decode (0b0000000000000000000000#22 ++ 0b00#2 ++ 0b00001011#8) = .ok .flip16 ∧
    decode (0b0000000000000000000000#22 ++ 0b00#2 ++ 0b00001100#8) = .ok .flip32 ∧
    decode (0b0000000000000000000000#22 ++ 0b00#2 ++ 0b00001101#8) = .ok .flip64 ∧
    decode (0b0000000000000000000000#22 ++ 0b00#2 ++ 0b00001110#8) = .ok .byte2u ∧
    decode (0b0000000000000000000000#22 ++ 0b00#2 ++ 0b00001111#8) = .ok .hexchar := by
  decide

theorem test_decode_hex :
    decode (0b0000000000000000000000#22 ++ 0b00#2 ++ 0b00010000#8) = .ok .hexenc ∧
    decode (0b0000000000000000000000#22 ++ 0b00#2 ++ 0b00010001#8) = .ok .hexencsp ∧
    decode (0b0000000000000000000000#22 ++ 0b00#2 ++ 0b00010010#8) = .ok .hexdump ∧
    decode (0b0000000000000000000000#22 ++ 0b00#2 ++ 0b00011000#8) = .ok .hexdec := by
  decide

theorem test_decode_bcc :
    decode (0b0000000000000000000000#22 ++ 0b00#2 ++ 0b00100000#8) = .ok .bccInit ∧
    decode (0b0000000000000000000000#22 ++ 0b00#2 ++ 0b00100001#8) = .ok .bccUpdb ∧
    decode (0b0000000000000000000000#22 ++ 0b00#2 ++ 0b00100010#8) = .ok .bccUpd ∧
    decode (0b0000000000000000000000#22 ++ 0b00#2 ++ 0b00100011#8) = .ok .bccFin ∧
    decode (0b0000000000000000000000#22 ++ 0b00#2 ++ 0b00100100#8) = .ok .bccFinb := by
  decide

theorem test_decode_additive :
    decode (0b0000000000000000000000#22 ++ 0b00#2 ++ 0b00110000#8) = .ok .addInit ∧
    decode (0b0000000000000000000000#22 ++ 0b00#2 ++ 0b00110001#8) = .ok .addUpdb ∧
    decode (0b0000000000000000000000#22 ++ 0b00#2 ++ 0b00110010#8) = .ok .addUpd ∧
    decode (0b0000000000000000000000#22 ++ 0b00#2 ++ 0b00110011#8) = .ok .addFin ∧
    decode (0b0000000000000000000000#22 ++ 0b00#2 ++ 0b00110100#8) = .ok .addFinb := by
  decide

theorem test_decode_crc16 :
    decode (0b0000000000000000000000#22 ++ 0b01#2 ++ 0b01000000#8) = .ok (.crcInit 0b01#2) ∧
    decode (0b0000000000000000000000#22 ++ 0b10#2 ++ 0b01000000#8) = .ok (.crcInit 0b10#2) ∧
    decode (0b0000000000000000000000#22 ++ 0b00#2 ++ 0b01000001#8) = .ok .crcUpdb ∧
    decode (0b0000000000000000000000#22 ++ 0b00#2 ++ 0b01000010#8) = .ok .crcUpd ∧
    decode (0b0000000000000000000000#22 ++ 0b00#2 ++ 0b01000011#8) = .ok .crcFin ∧
    decode (0b0000000000000000000000#22 ++ 0b00#2 ++ 0b01000100#8) = .ok .crcFinb := by
  decide

/-- R94's conditions, each by name. -/
theorem test_decode_rejects :
    decode 0x00000000#32 = .error .unassignedOpcode ∧ decode 0x00000013#32 = .error .unassignedOpcode ∧
    decode 0x000000FF#32 = .error .unassignedOpcode ∧ decode 0x00000123#32 = .error .modeBits ∧
    decode 0x00000423#32 = .error .reservedBits ∧ decode 0x80000001#32 = .error .reservedBits := by
  decide

theorem test_decodeTableWord :
    decodeTableWord 32 0x240 = some (.crcInit 0b10#2) ∧ decodeTableWord 32 0x18 = some .hexdec ∧
    decodeTableWord 32 0x19 = none := by
  decide

theorem test_encode : encode (.crcInit 0b10#2) = 0x00000240#32 ∧ encode .hexdec = 0x00000018#32 := by decide

/-! ## WellFormed refuses the terms no spelling gives (R93, R96) -/

theorem test_wellFormed_refuses_mode_00 : wellFormed (.crcInit 0b00#2) = false := by decide
theorem test_wellFormed_refuses_mode_11 : wellFormed (.crcInit 0b11#2) = false := by decide
theorem test_wellFormed_accepts :
    wellFormed (.crcInit 0b01#2) = true ∧ wellFormed (.crcInit 0b10#2) = true ∧ wellFormed .flip8 = true := by decide

/-! ## The commands, on the vectors of spec/95_test_vectors.md -/

/-- The start of a vector: D, T, OFF, LEN and VAL written by the host after reset. -/
def start (d t : List Byte) (off len : Word) (val : DWord) : State :=
  { State.reset with
    dbuf := writeCells [] 0 d
    dlen := BitVec.ofNat 32 d.length
    tbuf := writeCells [] 0 t
    tlen := BitVec.ofNat 32 t.length
    off := off
    len := len
    val := val }

/-- The state after the command word `w`, run by `step` as the host's write to CMD would have it. -/
def after (w : Nat) (s : State) : Option State :=
  match step (s.withFetchWord 32 w) with
  | .next t => some t
  | _ => none

/-- STATUS and ERRINFO after the command word `w`. -/
def report (w : Nat) (s : State) : Option (Word × Word) := (after w s).map fun t => (t.status, t.errInfo)

/-- The bytes of D, or of T, after the command word `w`. -/
def dAfter (w : Nat) (s : State) : Option (List Byte × Word) := (after w s).map fun t => (t.dbuf.map Prod.snd, t.dlen)
def tAfter (w : Nat) (s : State) : Option (List Byte × Word) := (after w s).map fun t => (t.tbuf.map Prod.snd, t.tlen)
def resAfter (w : Nat) (s : State) : Option DWord := (after w s).map (·.res)

/-- PK3 -/
theorem test_unpack16 : resAfter 0x1 (start [0xFF, 0x80] [] 0x0 0x0 0x0) = some 0xFF80 := by decide

/-- PK7: the sum is exact, then truncated -/
theorem test_unpack16_range : report 0x1 (start [0x01, 0x02, 0x03] [] 0x7FFFFFFF 0x0 0x0) = some (0x602, 0x80000001) := by decide

/-- PK9 -/
theorem test_unpack32 : resAfter 0x2 (start [0x80, 0x00, 0x00, 0xFF] [] 0x0 0x0 0x0) = some 0x800000FF := by decide

/-- PK10 -/
theorem test_unpack32_range : report 0x2 (start [0x01, 0x02, 0x03] [] 0x0 0x0 0x0) = some (0x602, 0x4) := by decide

/-- PK11 -/
theorem test_unpack64 : resAfter 0x3 (start [0x01, 0x02, 0x03, 0x04, 0x05, 0x06, 0x07, 0x08] [] 0x0 0x0 0x0) = some 0x102030405060708 := by decide

/-- PK20 -/
theorem test_pack16_grows : dAfter 0x4 (start [0xAA, 0xBB] [] 0x4 0x0 0x1234) =
    some ([0xAA, 0xBB, 0x00, 0x00, 0x12, 0x34], 6) := by decide

/-- PK21 -/
theorem test_pack16_inside : dAfter 0x4 (start [0xAA, 0xBB, 0xCC] [] 0x1 0x0 0x1234) =
    some ([0xAA, 0x12, 0x34], 3) := by decide

/-- PK23 -/
theorem test_pack32 : dAfter 0x5 (start [0x01, 0x02, 0x03] [] 0x2 0x0 0x11223344) =
    some ([0x01, 0x02, 0x11, 0x22, 0x33, 0x44], 6) := by decide

/-- PK24 -/
theorem test_pack32_capacity : report 0x5 (start [0x01] [] 0xFD 0x0 0x1) = some (0x702, 0x101) := by decide

/-- PK26 -/
theorem test_pack64 : dAfter 0x6 (start [] [] 0x0 0x0 0x102030405060708) =
    some ([0x01, 0x02, 0x03, 0x04, 0x05, 0x06, 0x07, 0x08], 8) := by decide

/-- PK27 -/
theorem test_pack64_negative : report 0x6 (start [] [] 0xFFFFFFF8 0x0 0x0) = some (0x502, 0x1) := by decide

/-- PK28 -/
theorem test_append16 : dAfter 0x7 (start [0x7E] [] 0x4D 0x0 0xABCD) =
    some ([0x7E, 0xAB, 0xCD], 3) := by decide

/-- PK29 -/
theorem test_append32 : dAfter 0x8 (start [] [] 0x0 0x0 0x1) =
    some ([0x00, 0x00, 0x00, 0x01], 4) := by decide

/-- PK30 -/
theorem test_append64 : dAfter 0x9 (start [] [] 0x0 0x0 0xFFFFFFFFFFFFFFFE) =
    some ([0xFF, 0xFF, 0xFF, 0xFF, 0xFF, 0xFF, 0xFF, 0xFE], 8) := by decide

/-- PK42 -/
theorem test_flip8 : resAfter 0xA (start [] [] 0x0 0x0 0xFFFFFFFFFFFFFF12) = some 0x21 := by decide

/-- PK43 -/
theorem test_flip16 : resAfter 0xB (start [] [] 0x0 0x0 0x1234) = some 0x3412 := by decide

/-- PK45 -/
theorem test_flip32 : resAfter 0xC (start [] [] 0x0 0x0 0x11223344) = some 0x33441122 := by decide

/-- PK47 -/
theorem test_flip64 : resAfter 0xD (start [] [] 0x0 0x0 0x1122334455667788) = some 0x5566778811223344 := by decide

/-- PK50 -/
theorem test_byte2u : resAfter 0xE (start [] [] 0x0 0x0 0xFFFFFFFFFFFFFFFF) = some 0xFF := by decide

/-- PK54 -/
theorem test_hexchar : resAfter 0xF (start [] [] 0x0 0x0 0x66) = some 0xF := by decide

/-- PK59 -/
theorem test_hexchar_wide_code : report 0xF (start [] [] 0x0 0x0 0x130) = some (0x202, 0x130) := by decide

/-- HX2 -/
theorem test_hexenc : tAfter 0x10 (start [0x01, 0xAB, 0xFF] [] 0x1 0x2 0x0) =
    some ([0x41, 0x42, 0x46, 0x46], 4) := by decide

/-- HX5 -/
theorem test_hexenc_negative_length : report 0x10 (start [0x01] [] 0x0 0xFFFFFFFF 0x0) = some (0x502, 0x2) := by decide

/-- HX6 -/
theorem test_hexencsp : tAfter 0x11 (start [0x01, 0xAB, 0x00] [] 0x0 0x3 0x0) =
    some ([0x30, 0x31, 0x20, 0x41, 0x42, 0x20, 0x30, 0x30], 8) := by decide

/-- HX8 -/
theorem test_hexencsp_empty : tAfter 0x11 (start [0x7F] [] 0x0 0x0 0x0) =
    some ([], 0) := by decide

/-- HX13 -/
theorem test_hexdump : tAfter 0x12 (start [0x30, 0x31, 0x32, 0x33, 0x34, 0x35, 0x36, 0x37, 0x38, 0x39] [] 0x5 0x3 0x0) =
    some ([0x30, 0x78, 0x30, 0x30, 0x30, 0x30, 0x30, 0x30, 0x30, 0x35, 0x20, 0x33, 0x35, 0x20, 0x33, 0x36, 0x20, 0x33, 0x37, 0x20, 0x20, 0x20, 0x20, 0x20, 0x20, 0x20, 0x20, 0x20, 0x20, 0x20, 0x20, 0x20, 0x20, 0x20, 0x20, 0x20, 0x20, 0x20, 0x20, 0x20, 0x20, 0x20, 0x20, 0x20, 0x20, 0x20, 0x20, 0x20, 0x20, 0x20, 0x20, 0x20, 0x20, 0x20, 0x20, 0x20, 0x20, 0x20, 0x20, 0x35, 0x36, 0x37, 0x0A], 63) := by decide

/-- W5 -/
theorem test_hexdump_full_line : tAfter 0x12 (start [0x54, 0x68, 0x69, 0x73, 0x20, 0x69, 0x73, 0x20, 0x6D, 0x65, 0x6D, 0x6F, 0x72, 0x79, 0x20, 0x64] [] 0x0 0x10 0x0) =
    some ([0x30, 0x78, 0x30, 0x30, 0x30, 0x30, 0x30, 0x30, 0x30, 0x30, 0x20, 0x35, 0x34, 0x20, 0x36, 0x38, 0x20, 0x36, 0x39, 0x20, 0x37, 0x33, 0x20, 0x32, 0x30, 0x20, 0x36, 0x39, 0x20, 0x37, 0x33, 0x20, 0x32, 0x30, 0x20, 0x36, 0x44, 0x20, 0x36, 0x35, 0x20, 0x36, 0x44, 0x20, 0x36, 0x46, 0x20, 0x37, 0x32, 0x20, 0x37, 0x39, 0x20, 0x32, 0x30, 0x20, 0x36, 0x34, 0x20, 0x54, 0x68, 0x69, 0x73, 0x20, 0x69, 0x73, 0x20, 0x6D, 0x65, 0x6D, 0x6F, 0x72, 0x79, 0x20, 0x64, 0x0A], 76) := by decide

/-- HX20 -/
theorem test_hexdec : dAfter 0x18 (start [] [0x61, 0x42, 0x63, 0x64] 0x0 0x4 0x0) =
    some ([0xAB, 0xCD], 2) := by decide

/-- HX27 -/
theorem test_hexdec_bad_character : report 0x18 (start [] [0x30, 0x31, 0x41, 0x47] 0x0 0x4 0x0) = some (0x202, 0x3) := by decide

/-- BC3 -/
theorem test_bcc_init : ((some (start [] [] 0x0 0x0 0x12345600)).bind (after 0x20)).map (·.bccAcc) = some 0x12345600 := by decide

/-- Program 4 -/
theorem test_bcc_updb : ((some (start [] [] 0x0 0x0 0xA0)).bind (after 0x21)).map (·.bccAcc) = some 0xA0 := by decide

/-- W3, BC1 -/
theorem test_bcc_upd : ((some (start [0x01, 0xA0, 0x7C, 0xFF, 0x02] [] 0x0 0x64 0x0)).bind (after 0x22)).map (·.bccAcc) = some 0x20 := by decide

/-- BC7: OFF plus LEN does not wrap -/
theorem test_bcc_upd_exact_sum : ((some (start [0x01, 0x02] [] 0x7FFFFFFF 0x7FFFFFFF 0x0)).bind (after 0x22)).map (·.bccAcc) = some 0x0 := by decide

/-- W3 -/
theorem test_bcc_fin : (((some (start [0x01, 0xA0, 0x7C, 0xFF, 0x02] [] 0x0 0x5 0x0)).bind (after 0x22)).bind (after 0x23)).map (·.res) = some 0x20 := by decide

/-- BC5's range, from BCC_ACC = 0 -/
theorem test_bcc_finb : ((some (start [0xA0] [] 0x0 0x1 0x0)).bind (after 0x24)).map (·.res) = some 0xA0 := by decide

/-- AD6 -/
theorem test_add_init : ((some (start [] [] 0x0 0x0 0xF0)).bind (after 0x30)).map (·.addAcc) = some 0xF0 := by decide

/-- AD10's byte, from ADD_ACC = 0 -/
theorem test_add_updb : ((some (start [] [] 0x0 0x0 0x20)).bind (after 0x31)).map (·.addAcc) = some 0x20 := by decide

/-- AD4 -/
theorem test_add_upd : ((some (start [0xFF, 0xFF, 0x01] [] 0x0 0x3 0x0)).bind (after 0x32)).map (·.addAcc) = some 0x1FF := by decide

/-- W13: 256 is inverted -/
theorem test_add_fin_boundary : (((some (start [0xFF, 0x01] [] 0x0 0x2 0x0)).bind (after 0x32)).bind (after 0x33)).map (·.res) = some 0x100 := by decide

/-- AD7 -/
theorem test_add_fin_negative_sum : (((some (start [] [] 0x0 0x0 0xFFFFFFFF)).bind (after 0x30)).bind (after 0x33)).map (·.res) = some 0xFFFFFFFF := by decide

/-- AD4's sum -/
theorem test_add_finb : ((some (start [0xFF, 0xFF, 0x01] [] 0x0 0x3 0x0)).bind (after 0x34)).map (·.res) = some 0x1 := by decide

/-- CR2 -/
theorem test_crc_init_shift : ((some (start [] [] 0x0 0x0 0x0)).bind (after 0x240)).map (·.crcMode) = some 0x2 := by decide

/-- CR13 -/
theorem test_crc_init_mode_11 : report 0x340 (start [] [] 0x0 0x0 0x5) = some (0x402, 0x3) := by decide

/-- CR15's first byte: R251's ROM[0x31] -/
theorem test_crc_updb : ((some (start [] [] 0x0 0x0 0x31)).bind (after 0x41)).map (·.crcAcc) = some 0xD4C1 := by decide

/-- CR1 -/
theorem test_crc_upd_table : ((some (start [0x31, 0x32, 0x33, 0x34, 0x35, 0x36, 0x37, 0x38, 0x39] [] 0x0 0x9 0x0)).bind (after 0x42)).map (·.crcAcc) = some 0xBB3D := by decide

/-- CR10: the register is not masked -/
theorem test_crc_upd_shift : (((some (start [0x01] [] 0x0 0x1 0x12345678)).bind (after 0x240)).bind (after 0x42)).map (·.crcAcc) = some 0x12D697 := by decide

/-- CR3 -/
theorem test_crc_fin : (((some (start [0x01] [] 0x0 0x1 0x0)).bind (after 0x42)).bind (after 0x43)).map (·.res) = some 0xC0C1 := by decide

/-- CR14 -/
theorem test_crc_finb : ((some (start [0x01, 0xAB] [] 0x0 0x2 0x0)).bind (after 0x44)).map (·.res) = some 0x2F40 := by decide

/-- ER3 -/
theorem test_illegal_command : report 0x123 (start [] [] 0x0 0x0 0x0) = some (0x102, 0x123) := by decide

/-! ## The host's accesses -/

/-- Log entry 19: a host read of an unwritten cell goes on while BUSY = 1, and stops when BUSY = 0. -/
theorem test_read_of_unwritten_cell :
    Runs (hostRead 0x10000 8 (startCommand 1#32 0 State.reset)) ∧
    hostRead 0x10000 8 State.reset = .fault .unwrittenRead := ⟨⟨_, rfl⟩, rfl⟩

/-- ER5, ER6: DLEN and TLEN take the nearest legal value. -/
theorem test_dlen_tlen_saturate :
    (writeReg .dlen 300#32 State.reset).dlen = 256#32 ∧ (writeReg .tlen 0xFFFFFFFF#32 State.reset).tlen = 1024#32 := by
  decide

/-- R21, R23, R26: offsets of STATUS and VAL_HI, and VAL_HI's half of VAL. -/
theorem test_register_file :
    regOffset .status = 0x004 ∧ regOffset .valHi = 0x014 ∧ regOffset .errInfo = 0x038 ∧
    (writeReg .valHi 0xAABBCCDD#32 (start [] [] 0 0 0x1122334455667788#64)).val = 0xAABBCCDD55667788#64 := by
  decide

/-- Program 3's failed HEXDEC: STATUS reads 0x00000202, and `bnz STATUS.ERR` is taken. -/
theorem test_branch_on_error :
    ((after 0x18 (start [0xF0, 0x10] [0x30, 0x47] 0 2 0)).map fun s =>
      match hostAction (.branch true .status 1 1 7) (noteRead 0x004 s.status { s with host := ⟨[.label 7], 1, [], false⟩ }) with
      | .next t => (t.host.seen, t.host.pc)
      | _ => ([], 9)) = some ([(0x004, 0x00000202#32)], 0) := by
  decide

/-! ## Witnesses: concrete states and operands that meet the hypotheses of each statement -/

/-- An idle state with a few cells, registers at legal values, and an error report. -/
def idle : State :=
  { start [0x01, 0xAB, 0xFF] [0x30, 0x31, 0x41, 0x42] 0 3 0x1122334455667788#64 with
    status := 0x00000302#32
    errInfo := 3
    bccAcc := 5
    addAcc := 0x1F0
    crcAcc := 0x1234
    crcMode := 2 }

/-- The same state with the command word `w` accepted and its time come. -/
def busy (w : Word) : State := startCommand w 0 idle

theorem witness_invariant : Inv idle ∧ ∀ w, Inv (busy w) := by
  have h : Config.vectors.Legal := ⟨by decide, by decide, by decide, by decide, by decide⟩
  have i : Inv idle := by
    refine ⟨h, ?_, ?_, ?_, ?_, ?_, ?_, ?_, ?_, ?_, ?_, ?_, ?_, ?_⟩
    all_goals decide
  refine ⟨i, fun w => ⟨i.1, i.2, i.3, i.4, i.5, i.6, i.7, i.8, ?_, ?_, ?_, fun _ => rfl, ?_, ?_⟩⟩
  case refine_5 => intro p hp; cases hp; exact ⟨rfl, rfl, rfl⟩
  all_goals simp only [busy, startCommand_status, startCommand_pending, statusBusy]; first | decide | rfl

/-- StepKeepsInvariant: from a state with the invariant, each command of `busy` and each host access goes on. -/
theorem witness_StepKeepsInvariant :
    (Inv (busy 0x00000018#32) ∧ Runs (step (busy 0x00000018#32))) ∧
    (Inv (busy 0x00000013#32) ∧ Runs (step (busy 0x00000013#32))) ∧
    Inv idle ∧ Runs (step { idle with host := ⟨[.write 0x000 32 1], 0, [], false⟩ }) :=
  ⟨⟨witness_invariant.2 _, _, rfl⟩, ⟨witness_invariant.2 _, _, rfl⟩, witness_invariant.1, _, rfl⟩

/-- InvariantHoldsAfterReset: the least and the greatest parameters of R6, and those of the vectors. -/
theorem witness_InvariantHoldsAfterReset :
    Config.Legal ⟨1, 1, 0⟩ ∧ Config.Legal ⟨65536, 524288, 0x7FF00000⟩ ∧ Config.vectors.Legal :=
  ⟨⟨by decide, by decide, by decide, by decide, by decide⟩, ⟨by decide, by decide, by decide, by decide, by decide⟩,
    ⟨by decide, by decide, by decide, by decide, by decide⟩⟩

/-- IllegalWordRaisesIllegalCommand: each condition of R94 at the ends of its range, pending with its time come. -/
theorem witness_IllegalWordRaisesIllegalCommand :
    (∀ w ∈ ([0x00000000#32, 0x00000013#32, 0x00000017#32, 0x00000019#32, 0x0000001F#32, 0x00000025#32, 0x0000002F#32] ++
        [0x00000035#32, 0x0000003F#32, 0x00000045#32, 0x000000FF#32, 0x00000401#32, 0x80000044#32] ++
        [0x00000101#32, 0x00000344#32, 0x00000141#32]), IllegalWord w ∧ (busy w).pending = some ⟨w, 0⟩) ∧
    ∀ w ∈ ([0x00000001#32, 0x00000012#32, 0x00000018#32, 0x00000020#32, 0x00000024#32, 0x00000030#32, 0x00000034#32] ++
        [0x00000040#32, 0x00000340#32, 0x00000044#32]), ¬ IllegalWord w := by
  refine ⟨fun w hw => ⟨?_, rfl⟩, fun w hw => ?_⟩ <;> simp only [IllegalWord] <;>
    fin_cases hw <;> decide

/-- StepRunsDecodedCommand: a command whose time has come, one that waits, and none; and a word of `withFetchWord`. -/
theorem witness_StepRunsDecodedCommand :
    ((busy 0x0000000A#32).pending = some ⟨0x0000000A#32, 0⟩ ∧ decode 0x0000000A#32 = .ok .flip8) ∧
    (startCommand 0x0000000A#32 1 idle).pending = some ⟨0x0000000A#32, 0 + 1⟩ ∧ idle.pending = none := by
  decide

/-- CmdWriteStartsCommand, HostReadsRegisters, HostWritesRegisters: an idle device. -/
theorem witness_idle : idle.status.getLsbD 0 = false := by decide

/-- PendingCommandCompletes: a host with no program, and a command that waits for no action, or for two. -/
theorem witness_PendingCommandCompletes :
    decode 0x0000000A#32 = .ok .flip8 ∧ ∀ k ∈ [0, 2], (startCommand 0x0000000A#32 k idle).pending = some ⟨0x0000000A#32, k⟩ ∧
      (startCommand 0x0000000A#32 k idle).host.prog.length ≤ (startCommand 0x0000000A#32 k idle).host.pc := by
  decide

/-- ErrorLeavesNoPartialState: an illegal word, and a HEXDEC whose second digit pair is bad. -/
theorem witness_ErrorLeavesNoPartialState :
    (∃ t, (busy 0#32).status = 0x00000001#32 ∧ runCommand 0#32 (busy 0#32) = .next t ∧ t.status.getLsbD 1 = true) ∧
    ∃ t, (startCommand 0x00000018#32 0 (start [] [0x30, 0x31, 0x30, 0x47] 0 4 0)).status = 0x00000001#32 ∧
      runCommand 0x00000018#32 (startCommand 0x00000018#32 0 (start [] [0x30, 0x31, 0x30, 0x47] 0 4 0)) = .next t ∧
      t.status.getLsbD 1 = true :=
  ⟨⟨_, rfl, rfl, by decide⟩, _, rfl, rfl, by decide⟩

/-- CommandsKeepOperands, CommandsWriteOnlyTheirState: every command goes on from `idle`. -/
theorem witness_every_command_goes_on :
    ∀ i : Instr, Runs (exec i (if i = .unpack32 ∨ i = .unpack64 then { idle with off := 0xFFFFFFFF#32 } else idle)) := by
  intro i
  cases i with
  | crcInit mode =>
    have h : ∀ m : BitVec 2, m = 0 ∨ m = 1 ∨ m = 2 ∨ m = 3 := by decide
    rcases h mode with rfl | rfl | rfl | rfl <;> exact ⟨_, rfl⟩
  | _ => exact ⟨_, rfl⟩

/-- OnlyCrcInitChangesCrcMode: a CRC_INIT.TABLE in SHIFT mode, and an RST there. -/
theorem witness_OnlyCrcInitChangesCrcMode :
    (∃ t, step (busy 0x00000140#32) = .next t ∧ t.crcMode ≠ (busy 0x00000140#32).crcMode) ∧
    ∃ t, step { idle with host := ⟨[.reset], 0, [], false⟩ } = .next t ∧ t.crcMode ≠ idle.crcMode :=
  ⟨⟨_, rfl, by decide⟩, _, rfl, by decide⟩

/-- BusyDeviceKeepsItsState: the host reads STATUS while a command waits. -/
theorem witness_BusyDeviceKeepsItsState :
    ∃ t, (startCommand 0x0000000A#32 1 { idle with host := ⟨[.read 0x004 32], 0, [], false⟩ }).pending =
        some ⟨0x0000000A#32, 0 + 1⟩ ∧
      (startCommand 0x0000000A#32 1 { idle with host := ⟨[.read 0x004 32], 0, [], false⟩ }).status.getLsbD 0 = true ∧
      (startCommand 0x0000000A#32 1 { idle with host := ⟨[.read 0x004 32], 0, [], false⟩ }).host.prog[0]? ≠ some .reset ∧
      step (startCommand 0x0000000A#32 1 { idle with host := ⟨[.read 0x004 32], 0, [], false⟩ }) = .next t :=
  ⟨_, rfl, by decide, by decide, rfl⟩

/-- `idle` with lengths that reach past what is written: DLEN at BUF_CAP, TLEN at 8. -/
def sparse (off len : Word) : State := { idle with off := off, len := len, dlen := 256, tlen := 8 }

/-- HostExecReturnsTheCommandsEffect: `idle` with the program `exec FLIP8`, and the command's effect. -/
theorem witness_HostExecReturnsTheCommandsEffect :
    ∃ t, idle.status.getLsbD 0 = false ∧ idle.pending = none ∧
      runCommand 0x0000000A#32 (startCommand 0x0000000A#32 0
        { idle with host := ⟨asmExec idle.cfg 0x0000000A#32 7, 0, [], false⟩ }) = .next t ∧
      t.res = 0x88 :=
  ⟨_, by decide, by decide, rfl, by decide⟩

/-- UnwrittenReadStops: the first and the last cell of an unpack that ends at DLEN; the first and the last cell of a range; the
first character of a decode, and one after four digits. -/
theorem witness_UnwrittenReadStops :
    (∀ p ∈ ([(2, 254), (2, 255), (4, 252), (4, 255), (8, 248), (8, 255)] : List (Nat × Nat)),
      0 ≤ (sparse (BitVec.ofNat 32 (256 - p.1)) 0).off.toInt ∧
      (sparse (BitVec.ofNat 32 (256 - p.1)) 0).off.toInt + p.1 ≤ (sparse (BitVec.ofNat 32 (256 - p.1)) 0).dlen.toNat ∧
      (sparse (BitVec.ofNat 32 (256 - p.1)) 0).off.toInt ≤ p.2 ∧
      (p.2 : Int) < (sparse (BitVec.ofNat 32 (256 - p.1)) 0).off.toInt + p.1 ∧
      readCell (sparse (BitVec.ofNat 32 (256 - p.1)) 0).dbuf p.2 = none) ∧
    (∀ k ∈ [3, 255], 0 ≤ (sparse 3 0x7FFFFFFF).off.toInt ∧ 0 ≤ (sparse 3 0x7FFFFFFF).len.toInt ∧
      (sparse 3 0x7FFFFFFF).off.toInt ≤ (k : Nat) ∧
      ((k : Nat) : Int) < min ((sparse 3 0x7FFFFFFF).off.toInt + (sparse 3 0x7FFFFFFF).len.toInt) (sparse 3 0x7FFFFFFF).dlen.toNat ∧
      readCell (sparse 3 0x7FFFFFFF).dbuf k = none) ∧
    (CellsHold (sparse 4 2).tbuf 4 [] ∧ readCell (sparse 4 2).tbuf (4 + 0) = none ∧
      (2 : Int) = min ((sparse 4 2).off.toInt + (sparse 4 2).len.toInt) (sparse 4 2).tlen.toNat - (sparse 4 2).off.toInt) ∧
    CellsHold (sparse 0 6).tbuf 0 [0x30, 0x31, 0x41, 0x42] ∧ readCell (sparse 0 6).tbuf (0 + 4) = none ∧
      (∀ c ∈ ([0x30#8, 0x31#8, 0x41#8, 0x42#8] : List Byte), ∃ v, IsHexDigit c.toNat v) ∧
      (6 : Int) = min ((sparse 0 6).off.toInt + (sparse 0 6).len.toInt) (sparse 0 6).tlen.toNat - (sparse 0 6).off.toInt := by
  refine ⟨by decide, by decide, ⟨fun j b h => by simp at h, by decide, by decide⟩, cellsHold_writeCells [] 0 _, by decide, ?_,
    by decide⟩
  intro c hc
  simp only [List.mem_cons, List.not_mem_nil, or_false] at hc
  unfold IsHexDigit
  rcases hc with rfl | rfl | rfl | rfl
  exacts [⟨0, by decide⟩, ⟨1, by decide⟩, ⟨10, by decide⟩, ⟨11, by decide⟩]

/-- HostReachesBufferCells: the first and the last cell of each buffer; a written cell and an unwritten one. -/
theorem witness_HostReachesBufferCells :
    idle.status.getLsbD 0 = false ∧ idle.cfg.Legal ∧ 0 < idle.cfg.bufCap ∧ 255 < idle.cfg.bufCap ∧ 1023 < idle.cfg.txtCap ∧
    readCell idle.dbuf 0 = some 0x01#8 ∧ readCell idle.dbuf 255 = none ∧
    readCell idle.tbuf 0 = some 0x30#8 ∧ readCell idle.tbuf 1023 = none :=
  ⟨by decide, witness_invariant.1.cfg_legal, by decide, by decide, by decide, by decide, by decide, by decide, by decide⟩

/-- ReservedOffsetsReadZero: the ends of each reserved range, by an access R62 admits there. -/
theorem witness_ReservedOffsetsReadZero :
    idle.status.getLsbD 0 = false ∧ idle.cfg.Legal ∧
    ∀ p ∈ ([(0x03C, 32), (0xFFC, 32), (0x1000, 8), (0x1000, 32), (0xFFFF, 8), (0x10100, 8), (0x1FFFF, 8), (0x20000, 32)] ++
        [(0x7FFFF, 8), (0x80400, 8), (0xFFFFF, 8)] : List (Nat × Nat)),
      ReservedOffset idle.cfg p.1 ∧ AdmittedAccess p.1 p.2 := by
  refine ⟨by decide, witness_invariant.1.cfg_legal, ?_⟩
  unfold ReservedOffset AdmittedAccess; decide

/-- UnadmittedAccessIsRefused: a narrow and an unaligned access of a register, a wide one of each buffer, and an unaligned one
elsewhere. -/
theorem witness_UnadmittedAccessIsRefused :
    ∀ p ∈ ([(0x000, 8), (0x002, 32), (0xFFC, 16), (0x10000, 32), (0x1FFFC, 32), (0x80000, 32), (0xFFFFC, 32)] ++
        [(0x1001, 32), (0x7FFFE, 32)] : List (Nat × Nat)), p.1 < 0x100000 ∧ ¬ AdmittedAccess p.1 p.2 := by
  unfold AdmittedAccess; decide

/-- BusyWriteIsHostHazard, BusyReadIsADraw: a busy device, and admitted accesses from the first offset to the last. -/
theorem witness_busy_access :
    (busy 0x0000000A#32).status.getLsbD 0 = true ∧
    ∀ p ∈ ([(0x000, 32), (0x004, 32), (0x10000, 8), (0xFFFFF, 8)] : List (Nat × Nat)),
      p.1 < 0x100000 ∧ AdmittedAccess p.1 p.2 := by
  unfold AdmittedAccess; decide

/-- HostReadsHaveNoSideEffect: a read that goes on. -/
theorem witness_HostReadsHaveNoSideEffect : Runs (hostRead 0x004 32 idle) := ⟨_, rfl⟩

/-- UnpackReadsBigEndian: OFF at -1; the end of the access one past DLEN; and at DLEN, on written cells. -/
theorem witness_UnpackReadsBigEndian :
    (start [1] [] 0xFFFFFFFF 0 0).off.toInt < 0 ∧
    (∀ n ∈ [2, 4, 8], 0 ≤ (sparse (BitVec.ofNat 32 (257 - n)) 0).off.toInt ∧
      ((sparse (BitVec.ofNat 32 (257 - n)) 0).dlen.toNat : Int) < (sparse (BitVec.ofNat 32 (257 - n)) 0).off.toInt + n) ∧
    ∀ bs ∈ ([[0xFF, 0x80], [0xDE, 0xAD, 0xBE, 0xEF], [1, 2, 3, 4, 5, 6, 7, 8]] : List (List Byte)),
      0 ≤ (start bs [] 0 0 0).off.toInt ∧
      (start bs [] 0 0 0).off.toInt + bs.length ≤ (start bs [] 0 0 0).dlen.toNat ∧
      CellsHold (start bs [] 0 0 0).dbuf (start bs [] 0 0 0).off.toInt.toNat bs := by
  refine ⟨by decide, by decide, fun bs hb => ⟨?_, ?_, cellsHold_writeCells [] 0 bs⟩⟩
  · exact Int.le_refl 0
  · revert bs; decide

/-- PackWritesBigEndianAndGrows and its round trip: OFF at -1; the end of the access one past BUF_CAP; and at BUF_CAP. -/
theorem witness_PackWritesBigEndianAndGrows :
    (start [] [] 0xFFFFFFFF 0 1).off.toInt < 0 ∧
    ∀ n ∈ [2, 4, 8], 0 ≤ (start [] [] (BitVec.ofNat 32 (257 - n)) 0 1).off.toInt ∧
      (256 : Int) < (start [] [] (BitVec.ofNat 32 (257 - n)) 0 1).off.toInt + n ∧
      0 ≤ (start [] [] (BitVec.ofNat 32 (256 - n)) 0 1).off.toInt ∧
      (start [] [] (BitVec.ofNat 32 (256 - n)) 0 1).off.toInt + n ≤ (start [] [] 0 0 1).cfg.bufCap := by
  decide

/-- AppendExtendsTheBuffer: DLEN plus the width one past BUF_CAP, and at it. -/
theorem witness_AppendExtendsTheBuffer :
    ∀ n ∈ [2, 4, 8], idle.cfg.bufCap < { idle with dlen := BitVec.ofNat 32 (257 - n) }.dlen.toNat + n ∧
      { idle with dlen := BitVec.ofNat 32 (256 - n) }.dlen.toNat + n ≤ idle.cfg.bufCap := by
  decide

/-- PackThenUnpackReturnsTheValue: the empty buffer, for APPEND; PACK's case is the witness above. -/
theorem witness_PackThenUnpackReturnsTheValue :
    State.reset.dlen = 0 ∧ ∀ n ∈ [2, 4, 8], n ≤ State.reset.cfg.bufCap := by
  decide

/-- HexcharParsesADigit: the ends of each range of digits, and the codes beside them. -/
theorem witness_HexcharParsesADigit :
    (∀ p ∈ ([(0x30, 0), (0x39, 9), (0x41, 10), (0x46, 15), (0x61, 10), (0x66, 15)] : List (Nat × Nat)), IsHexDigit p.1 p.2) ∧
    ∀ c ∈ [0x2F, 0x3A, 0x40, 0x47, 0x60, 0x67, 0x130, 0xFFFF], ¬ ∃ v, IsHexDigit c v := by
  refine ⟨by unfold IsHexDigit; decide, ?_⟩
  rintro c hc ⟨v, hv⟩
  simp only [List.mem_cons, List.not_mem_nil, or_false] at hc
  unfold IsHexDigit at hv
  omega

/-- The range commands: OFF at -1; LEN at -1; an empty range, a whole range, and one that LEN overruns. -/
theorem witness_RangeHolds :
    (0xFFFFFFFF#32).toInt < 0 ∧ (0 ≤ (0#32).toInt ∧ (0xFFFFFFFF#32).toInt < 0) ∧
    RangeHolds (start [] [] 0x7FFFFFFF 0x7FFFFFFF 0) [] ∧ RangeHolds (start [0x01, 0xAB, 0xFF] [] 0 3 0) [0x01, 0xAB, 0xFF] ∧
    RangeHolds (start [0xFF] [] 0 0x7FFFFFFF 0) [0xFF] :=
  ⟨by decide, by decide, ⟨by decide, by decide, by decide, fun j b h => by simp at h⟩,
    ⟨by decide, by decide, by decide, cellsHold_writeCells [] 0 _⟩, by decide, by decide, by decide, cellsHold_writeCells [] 0 _⟩

/-- The encoders: a text one character longer than TXT_CAP, and one as long. -/
theorem witness_encoders :
    RangeHolds (start [0x01, 0xAB] [] 0 2 0) [0x01, 0xAB] ∧
    RangeHolds { start [0x01, 0xAB] [] 0 2 0 with cfg := ⟨256, 3, 0⟩ } [0x01, 0xAB] ∧
    3 < ([0x01#8, 0xAB#8].flatMap twoDigits).length ∧ ([0x01#8, 0xAB#8].flatMap twoDigits).length ≤ 4 ∧
    4 < (List.intercalate [0x20#8] ([0x01#8, 0xAB#8].map twoDigits)).length ∧
    (List.intercalate [0x20#8] ([0x01#8, 0xAB#8].map twoDigits)).length ≤ 5 ∧
    61 < (lineOf 0 [0x01#8, 0xAB#8]).length ∧ (lineOf 0 [0x01#8, 0xAB#8]).length ≤ 62 :=
  ⟨⟨by decide, by decide, by decide, cellsHold_writeCells [] 0 _⟩, ⟨by decide, by decide, by decide, cellsHold_writeCells [] 0 _⟩,
    by decide, by decide, by decide, by decide, by decide, by decide⟩

/-- DumpGutterIsAligned: a line of one byte and one of sixteen. -/
theorem witness_DumpGutterIsAligned :
    ∀ bs ∈ ([[0x41], List.replicate 16 0x41] : List (List Byte)), 1 ≤ bs.length ∧ bs.length ≤ 16 ∧ bs[0]? = some 0x41 := by
  decide

/-- EncoderOutputLengths: legal parameters and two written bytes; TXT_CAP at each length, and one below it. -/
theorem witness_EncoderOutputLengths :
    (∀ c ∈ [4, 5, 62], Config.Legal ⟨256, c, 0⟩ ∧ Config.Legal ⟨256, c - 1, 0⟩) ∧
    (∀ c, RangeHolds { start [0x01, 0xAB] [] 0 2 0 with cfg := ⟨256, c, 0⟩ } [0x01, 0xAB]) ∧
    2 * 2 ≤ 4 ∧ 4 - 1 < 2 * 2 ∧ 3 * 2 - 1 ≤ 5 ∧ 5 - 1 < 3 * 2 - 1 ∧ 60 * ((2 + 15) / 16) + 2 ≤ 62 ∧
    62 - 1 < 60 * ((2 + 15) / 16) + 2 := by
  refine ⟨fun c hc => ?_, fun c => ⟨?_, ?_, ?_, cellsHold_writeCells [] 0 _⟩, by decide⟩
  · simp only [List.mem_cons, List.not_mem_nil, or_false] at hc
    rcases hc with rfl | rfl | rfl <;>
      exact ⟨⟨by decide, by decide, by decide, by decide, by decide⟩, ⟨by decide, by decide, by decide, by decide, by decide⟩⟩
  all_goals simp [start]

/-- HexdecDecodesPairs: OFF at -1; usable lengths 0, 1 and -2; one pair more than BUF_CAP; a bad last character; all digits, as
many pairs as BUF_CAP. -/
theorem witness_HexdecDecodesPairs :
    (start [] [0x30] 0xFFFFFFFF 1 0).off.toInt < 0 ∧
    (∀ p ∈ ([(0#32, 0), (1#32, 1), (0xFFFFFFFE#32, -2)] : List (Word × Int)),
      p.2 = min ((sparse 0 p.1).off.toInt + (sparse 0 p.1).len.toInt) (sparse 0 p.1).tlen.toNat - (sparse 0 p.1).off.toInt ∧
      (p.2 ≤ 0 ∨ p.2 % 2 = 1)) ∧
    (((⟨1, 8, 0⟩ : Config).bufCap : Int) < 4 / 2 ∧
      (4 : Int) = min ((sparse 0 4).off.toInt + (sparse 0 4).len.toInt) (sparse 0 4).tlen.toNat - (sparse 0 4).off.toInt) ∧
    ((4 : Int) = min ((0 : Int) + (start [] [0x30, 0x31, 0x41, 0x47] 0 4 0).len.toInt)
        (start [] [0x30, 0x31, 0x41, 0x47] 0 4 0).tlen.toNat - 0 ∧
      CellsHold (start [] [0x30, 0x31, 0x41, 0x47] 0 4 0).tbuf 0 ([0x30, 0x31, 0x41] ++ [0x47]) ∧
      (¬ ∃ v, IsHexDigit (0x47#8).toNat v) ∧ ∀ d ∈ ([0x30#8, 0x31#8, 0x41#8] : List Byte), ∃ v, IsHexDigit d.toNat v) ∧
    (2 : Int) / 2 ≤ ((⟨1, 8, 0⟩ : Config).bufCap : Int) ∧ CellsHold (start [] [0x61, 0x42] 0 2 0).tbuf 0 [0x61, 0x42] ∧
      List.Forall₂ (fun c v => IsHexDigit (BitVec.toNat c) v) [0x61#8, 0x42#8] [10, 11] := by
  refine ⟨by decide, by decide, by decide, ⟨by decide, cellsHold_writeCells [] 0 _, ?_, ?_⟩, by decide,
    cellsHold_writeCells [] 0 _, ?_⟩
  · rintro ⟨v, hv⟩; unfold IsHexDigit at hv; simp only [BitVec.reduceToNat] at hv; omega
  · intro d hd
    simp only [List.mem_cons, List.not_mem_nil, or_false] at hd
    unfold IsHexDigit
    rcases hd with rfl | rfl | rfl
    exacts [⟨0, by decide⟩, ⟨1, by decide⟩, ⟨10, by decide⟩]
  · refine .cons ?_ (.cons ?_ .nil) <;> unfold IsHexDigit <;> decide

/-- HexRoundTrip: a buffer of three bytes, and the empty buffer. -/
theorem witness_HexRoundTrip :
    ∀ bs ∈ ([[], [0x01, 0xAB, 0xFF]] : List (List Byte)),
      (start bs [] 0 (BitVec.ofNat 32 bs.length) 0).cfg.Legal ∧
      (start bs [] 0 (BitVec.ofNat 32 bs.length) 0).dlen.toNat ≤ 256 ∧
      bs.length = (start bs [] 0 (BitVec.ofNat 32 bs.length) 0).dlen.toNat ∧
      CellsHold (start bs [] 0 (BitVec.ofNat 32 bs.length) 0).dbuf 0 bs ∧ 2 * bs.length ≤ 1024 := by
  intro bs hb
  refine ⟨witness_invariant.1.cfg_legal, ?_, ?_, cellsHold_writeCells [] 0 bs, ?_⟩ <;> (revert bs; decide)

/-- CRC_UPDB, CRC_UPD and CRC_FINB: the mode after reset, and after CRC_INIT.SHIFT, with a written range. -/
theorem witness_crc_modes :
    State.reset.crcMode = 0x00000001#32 ∧ idle.crcMode = 0x00000002#32 ∧ RangeHolds idle [0x01, 0xAB, 0xFF] :=
  ⟨by decide, by decide, by decide, by decide, by decide, cellsHold_writeCells [] 0 _⟩

/-- CrcModeIsUnobservable: a command that is no CRC_INIT. -/
theorem witness_CrcModeIsUnobservable : ∀ mode, Instr.crcUpd ≠ .crcInit mode := by decide

/-- CrcStaysSixteenBits: a 16-bit register before a CRC_UPD, before a CRC_FIN, and at a CRC_INIT with a 16-bit VAL. -/
theorem witness_CrcStaysSixteenBits :
    Runs (exec .crcUpd idle) ∧ idle.crcAcc.toNat ≤ 0xFFFF ∧
    (∃ t, exec .crcFin State.reset = .next t ∧ t.status.getLsbD 1 = false) ∧
    Runs (exec (.crcInit 1) (start [] [] 0 0 0xFFFF)) ∧ (start [] [] 0 0 0xFFFF).val.toNat % 2 ^ 32 ≤ 0xFFFF :=
  ⟨⟨_, rfl⟩, by decide, ⟨_, rfl, by decide⟩, ⟨_, rfl⟩, by decide⟩

/-- StreamingEqualsBatch: a range of three bytes in parts of one and two, for each update. -/
theorem witness_StreamingEqualsBatch :
    (0 ≤ idle.off.toInt ∧ 0 ≤ (1#32).toInt ∧ 0 ≤ (2#32).toInt ∧ idle.off.toInt + (1#32).toInt + (2#32).toInt ≤ idle.dlen.toNat ∧
      idle.off.toInt + (1#32).toInt + (2#32).toInt < 2 ^ 31) ∧
    ∀ i ∈ ([.bccUpd, .addUpd, .crcUpd] : List Instr), ∃ t u, exec i { idle with len := 1#32 } = .next t ∧
      exec i { t with off := idle.off + 1#32, len := 2#32 } = .next u := by
  refine ⟨by decide, fun i hi => ?_⟩
  simp only [List.mem_cons, List.not_mem_nil, or_false] at hi
  rcases hi with rfl | rfl | rfl <;> exact ⟨_, _, rfl, rfl⟩

/-- BccKeepsTheUpperBits: an update of each form that goes on. -/
theorem witness_BccKeepsTheUpperBits : Runs (exec .bccUpdb idle) ∧ Runs (exec .bccUpd idle) := ⟨⟨_, rfl⟩, _, rfl⟩

/-- ByteOrderDoesNotMatter: three bytes, and the same three in another order. -/
theorem witness_ByteOrderDoesNotMatter :
    RangeHolds idle [0x01, 0xAB, 0xFF] ∧
    RangeHolds { idle with dbuf := writeCells [] 0 [0xFF, 0x01, 0xAB] } [0xFF, 0x01, 0xAB] ∧
    ([0x01, 0xAB, 0xFF] : List Byte).Perm [0xFF, 0x01, 0xAB] :=
  ⟨witness_crc_modes.2.2, ⟨by decide, by decide, by decide, cellsHold_writeCells [] 0 _⟩, by decide⟩

/-- FinbIsTheFoldOfACopy, InitRestoresASavedAccumulator: their hypotheses are those of `witness_crc_modes`. -/
theorem witness_copy_and_restore : RangeHolds idle [0x01, 0xAB, 0xFF] ∧ idle.crcMode = 0x00000002#32 :=
  ⟨witness_crc_modes.2.2, by decide⟩


end Sys2Proof.Machine
end

namespace Sys2Proof.Machine

/-! ## The steps of the machine and the invariant -/

/-- What a step that goes on has done: it has run the pending command, or the host has acted on the same state but for the time
left of a pending command. -/
theorem step_next {s t : State} (h : step s = .next t) :
    (∃ p, s.pending = some p ∧ runCommand p.word s = .next t) ∨
    (∃ p k, s.pending = some p ∧ hostStep { s with pending := some ⟨p.word, k⟩ } = .next t) ∨
    hostStep s = .next t := by
  unfold step at h
  split at h
  · exact .inr (.inr h)
  · next p hp =>
    split at h
    · exact .inl ⟨p, hp, h⟩
    · exact .inr (.inl ⟨p, _, hp, h⟩)

/-- The completion of a pending command keeps the invariant. -/
theorem Inv.of_runCommand {w : Word} {s t : State} (h : Inv s) (hp : s.pending.isSome)
    (hr : runCommand w s = .next t) : Inv t := by
  rcases runCommand_next hr with ⟨e, info, rfl⟩ | ⟨i, -, s', hw, rfl⟩
  · exact h.failed e _
  · exact (h.writes hw).completed (hw.pending ▸ hp)

/-- The state after reset has the invariant (R320). -/
theorem Inv.resetWith {c : Config} (h : c.Legal) : Inv (State.resetWith c) where
  cfg_legal := h
  dbuf_wf := .nil
  tbuf_wf := .nil
  dbuf_bound := by simp [State.resetWith]
  tbuf_bound := by simp [State.resetWith]
  dlen_le := Nat.zero_le _
  tlen_le := Nat.zero_le _
  crcMode_held := .inl rfl
  status_reserved := by simp [State.resetWith]
  errCode_le := by simp [State.resetWith]
  err_iff_code := by simp [State.resetWith]
  no_error_no_info _ := rfl
  busy_iff_pending := by simp [State.resetWith]
  pending_fresh _ hp := nomatch hp

/-- So has the state after a pulse on RST. -/
theorem Inv.applyReset {s : State} (h : Inv s) : Inv (applyReset s) := (Inv.resetWith h.cfg_legal).host s.host s.draws

/-- A step of the host keeps the invariant. -/
theorem Inv.of_hostStep {s t : State} (h : Inv s) (hs : hostStep s = .next t) : Inv t := by
  rcases hostStep_next hs with ⟨ag, d, rfl⟩ | ⟨-, ag, rfl⟩ | ⟨-, ag, tg, data, hw, rfl⟩
  · exact h.host ag d
  · exact (h.host ag s.draws).applyReset
  · exact (h.host ag s.draws).writeTarget hw data

/-- Settles O7: a step is the completion of a command or an action of the host, and each keeps the invariant. -/
theorem stepKeepsInvariant : Obligations.StepKeepsInvariant := by
  intro s t h hs
  rcases step_next hs with ⟨p, hp, hr⟩ | ⟨p, k, hp, hh⟩ | hh
  · exact h.of_runCommand (hp ▸ rfl) hr
  · exact (h.left hp k).of_hostStep hh
  · exact h.of_hostStep hh

/-! ## The frame of the commands -/

/-- A command that raises nothing writes at most the buffers and their lengths, RES, the accumulators and CRC_MODE. -/
theorem Writes.frame {i : Instr} {s s' : State} (hw : Writes i s s') :
    s' = { s with
      res := s'.res
      dlen := s'.dlen
      tlen := s'.tlen
      bccAcc := s'.bccAcc
      addAcc := s'.addAcc
      crcAcc := s'.crcAcc
      crcMode := s'.crcMode
      dbuf := s'.dbuf
      tbuf := s'.tbuf } := by
  cases i with
  | unpack16 | unpack32 | unpack64 | flip8 | flip16 | flip32 | flip64 | byte2u | hexchar
  | bccFin | bccFinb | addFin | addFinb | crcFin | crcFinb
  | bccInit | bccUpdb | bccUpd | addInit | addUpdb | addUpd | crcUpdb | crcUpd => obtain ⟨v, rfl⟩ := hw; rfl
  | pack16 | pack32 | pack64 | append16 | append32 | append64 | hexdec | hexenc | hexencsp | hexdump =>
    obtain ⟨m, d, rfl, -⟩ := hw; rfl
  | crcInit mode => obtain ⟨m, v, -, rfl⟩ := hw; rfl

/-- Settles O11: an error report leaves every operand, and what a command writes lies outside them. -/
theorem commandsKeepOperands : Obligations.CommandsKeepOperands := by
  intro i s t h
  rcases exec_next h with ⟨e, info, rfl⟩ | ⟨s', hw, rfl⟩
  · exact ⟨rfl, rfl, rfl, rfl, rfl, rfl, rfl⟩
  · rw [hw.frame]
    exact ⟨rfl, rfl, rfl, rfl, rfl, rfl, rfl⟩

/-- Settles O12: an error report leaves everything the statement names; otherwise the command's group says which one item it
writes, and every other item is as before. -/
theorem commandsWriteOnlyTheirState : Obligations.CommandsWriteOnlyTheirState := by
  intro i s t h
  rcases exec_next h with ⟨e, info, rfl⟩ | ⟨s', hw, rfl⟩
  · exact ⟨fun _ => ⟨rfl, rfl⟩, fun _ => ⟨rfl, rfl⟩, fun _ => rfl, fun _ => rfl, fun _ => rfl, fun _ => rfl⟩
  clear h
  cases i with
  | unpack16 | unpack32 | unpack64 | flip8 | flip16 | flip32 | flip64 | byte2u | hexchar
  | bccFin | bccFinb | addFin | addFinb | crcFin | crcFinb =>
    obtain ⟨v, rfl⟩ := hw
    exact ⟨fun _ => ⟨rfl, rfl⟩, fun _ => ⟨rfl, rfl⟩, fun hn => absurd (by decide) hn, fun _ => rfl, fun _ => rfl, fun _ => rfl⟩
  | pack16 | pack32 | pack64 | append16 | append32 | append64 | hexdec =>
    obtain ⟨m, d, rfl, -⟩ := hw
    exact ⟨fun hn => absurd (by decide) hn, fun _ => ⟨rfl, rfl⟩, fun _ => rfl, fun _ => rfl, fun _ => rfl, fun _ => rfl⟩
  | hexenc | hexencsp | hexdump =>
    obtain ⟨m, d, rfl, -⟩ := hw
    exact ⟨fun _ => ⟨rfl, rfl⟩, fun hn => absurd (by decide) hn, fun _ => rfl, fun _ => rfl, fun _ => rfl, fun _ => rfl⟩
  | bccInit | bccUpdb | bccUpd =>
    obtain ⟨v, rfl⟩ := hw
    exact ⟨fun _ => ⟨rfl, rfl⟩, fun _ => ⟨rfl, rfl⟩, fun _ => rfl, fun hn => absurd (by decide) hn, fun _ => rfl, fun _ => rfl⟩
  | addInit | addUpdb | addUpd =>
    obtain ⟨v, rfl⟩ := hw
    exact ⟨fun _ => ⟨rfl, rfl⟩, fun _ => ⟨rfl, rfl⟩, fun _ => rfl, fun _ => rfl, fun hn => absurd (by decide) hn, fun _ => rfl⟩
  | crcInit mode =>
    obtain ⟨m, v, -, rfl⟩ := hw
    exact ⟨fun _ => ⟨rfl, rfl⟩, fun _ => ⟨rfl, rfl⟩, fun _ => rfl, fun _ => rfl, fun _ => rfl,
      fun hn => absurd (by revert mode; decide) hn⟩
  | crcUpdb | crcUpd =>
    obtain ⟨v, rfl⟩ := hw
    exact ⟨fun _ => ⟨rfl, rfl⟩, fun _ => ⟨rfl, rfl⟩, fun _ => rfl, fun _ => rfl, fun _ => rfl, fun hn => absurd (by decide) hn⟩

/-! ## Reads of unwritten cells -/

/-- A command whose pseudocode meets a fault stops with it. -/
theorem complete_eq_fault {r : Except Stop State} {f : Fault} (h : r = .error (.fault f)) (s : State) :
    complete r s = .fault f := by rw [h, complete_fault]

/-- An encoder on a range with an unwritten cell. -/
theorem encodeRange_unwritten (text : Nat → List Byte → List Byte) {s : State} (h : 0 ≤ s.off.toInt) (hl : 0 ≤ s.len.toInt)
    {k : Nat} (hk : s.off.toInt ≤ k) (hk2 : (k : Int) < min (s.off.toInt + s.len.toInt) s.dlen.toNat)
    (hu : readCell s.dbuf k = none) : encodeRange text s = .error (.fault .unwrittenRead) := by
  rw [encodeRange, dataBytes_unwritten h hl hk hk2 hu]

/-- HEXDEC on hex digits with an unwritten cell after them. -/
theorem hexDecode_unwritten {s : State} {m : Int} {cs : List Byte} (h : 0 ≤ s.off.toInt)
    (hm : m = min (s.off.toInt + s.len.toInt) s.tlen.toNat - s.off.toInt) (h0 : 0 < m) (h2 : m % 2 = 0)
    (hc : m / 2 ≤ s.cfg.bufCap) (hl : (cs.length : Int) < m) (hcs : CellsHold s.tbuf s.off.toInt.toNat cs)
    (hv : ∀ c ∈ cs, ∃ v, IsHexDigit c.toNat v) (hu : readCell s.tbuf (s.off.toInt.toNat + cs.length) = none) :
    hexDecode s = .error (.fault .unwrittenRead) := by
  rw [hexDecode_pairs h hm h0 h2 hc, decodePairs_stops (by omega) hcs hv (hexDigitAt_unwritten hu)]

/-- Settles O16: the read that each command starts with meets the cell, and the command ends with the read's fault. -/
theorem unwrittenReadStops : Obligations.UnwrittenReadStops := by
  refine ⟨?_, ?_, ?_⟩
  · intro p hp s k h hn hk hk2 hu
    simp only [List.mem_cons, List.not_mem_nil, or_false] at hp
    rcases hp with rfl | rfl | rfl <;> exact complete_eq_fault (unpack_unwritten h hn hk hk2 hu) s
  · intro i hi s k h hl hk hk2 hu
    simp only [List.mem_cons, List.not_mem_nil, or_false] at hi
    rcases hi with rfl | rfl | rfl | rfl | rfl | rfl | rfl | rfl | rfl
    iterate 3 exact complete_eq_fault (encodeRange_unwritten _ h hl hk hk2 hu) s
    iterate 6 exact dataMatch_unwritten h hl hk hk2 hu
  · intro s m cs hm h h0 h2 hc hl hcs hv hu
    exact complete_eq_fault (hexDecode_unwritten h hm h0 h2 hc hl hcs hv hu) s

/-! ## The host's accesses of the idle device -/

/-- The low half of a pair as the host reads it. -/
theorem extractLsb'_low_eq_setWidth (v : DWord) : v.extractLsb' 0 32 = v.setWidth 32 := by
  apply BitVec.eq_of_toNat_eq
  rw [BitVec.extractLsb'_toNat, BitVec.toNat_setWidth, Nat.shiftRight_zero]

/-- The high half of a pair as the host reads it. -/
theorem extractLsb'_high_eq_setWidth (v : DWord) : v.extractLsb' 32 32 = (v >>> 32).setWidth 32 := by
  apply BitVec.eq_of_toNat_eq
  rw [BitVec.extractLsb'_toNat, BitVec.toNat_setWidth, BitVec.toNat_ushiftRight]

/-- A host write within the window of the idle device reaches its target. -/
theorem hostWrite_idle {s : State} {o width : Nat} {tg : Target} (hb : s.status.getLsbD 0 = false) (ho : o < 0x100000)
    (hl : locateOffset s.cfg o width = .ok tg) (w : Word) :
    hostWrite (s.cfg.devBase + o) width w s = .next (writeTarget tg w s) := by
  rw [hostWrite, locate_window ho, hl]
  simp only [busyBit, hb, Bool.false_eq_true, if_false]

/-- A host read within the window of the idle device notes what its target holds. -/
theorem hostRead_idle {s : State} {o width : Nat} {tg : Target} {v : Word} (hb : s.status.getLsbD 0 = false)
    (ho : o < 0x100000) (hl : locateOffset s.cfg o width = .ok tg) (hv : readTarget tg s = some v) :
    hostRead (s.cfg.devBase + o) width s = .next (hostSaw (s.cfg.devBase + o) v s) := by
  rw [hostRead, locate_window ho, hl]
  simp only [busyBit, hb, Bool.false_eq_true, false_and, if_false, hv]
  rfl

/-- A host write of a register of the idle device. -/
theorem hostWrite_reg {s : State} (hb : s.status.getLsbD 0 = false) (r : Reg) (w : Word) :
    hostWrite (s.cfg.devBase + regOffset r) 32 w s = .next (writeReg r w s) :=
  hostWrite_idle hb ((regOffset_aligned r).1.trans (by decide)) (locateOffset_reg _ r) w

/-- A host read of a register of the idle device. -/
theorem hostRead_reg {s : State} (hb : s.status.getLsbD 0 = false) (r : Reg) :
    hostRead (s.cfg.devBase + regOffset r) 32 s = .next (hostSaw (s.cfg.devBase + regOffset r) (readReg r s) s) :=
  hostRead_idle hb ((regOffset_aligned r).1.trans (by decide)) (locateOffset_reg _ r) rfl

/-- ERRINFO's offset is the highest. -/
theorem regOffset_le (r : Reg) : regOffset r ≤ 0x038 := by cases r <;> decide

/-- Above it there is no register (R35). -/
theorem regAt_eq_none {o : Nat} (h : 0x03C ≤ o) : regAt o = none := by
  cases hr : regAt o with
  | none => rfl
  | some r =>
    have hle := regOffset_le r
    have heq := regAt_eq_some.mp hr
    omega

/-- Every reserved offset lies in the window. -/
theorem ReservedOffset.lt {c : Config} {o : Nat} (h : ReservedOffset c o) : o < 0x100000 := by
  unfold ReservedOffset at h; omega

/-- An admitted access at a reserved offset reaches no register and no cell (R35, R61). -/
theorem locateOffset_reserved {c : Config} {o width : Nat} (h : ReservedOffset c o) (ha : AdmittedAccess o width) :
    locateOffset c o width = .ok .reserved := by
  unfold ReservedOffset at h
  unfold AdmittedAccess at ha
  unfold locateOffset
  split
  · next hfile => rw [if_pos (by omega), regAt_eq_none (by omega)]
  · split
    · next hdbuf => rw [if_pos (by omega), if_neg (by omega)]
    · split
      · next htbuf => rw [if_pos (by omega), if_neg (by omega)]
      · next hrest => rw [if_pos (by omega)]

/-- Settles O20: an admitted access at a reserved offset has the reserved target. -/
theorem reservedOffsetsReadZero : Obligations.ReservedOffsetsReadZero := by
  intro s w o width hb _ hr ha
  have hl := locateOffset_reserved hr ha
  exact ⟨hostWrite_idle hb hr.lt hl w, hostRead_idle hb hr.lt hl rfl⟩

/-- Settles O5: CMD stands at offset 0, and its writer starts the command. -/
theorem cmdWriteStartsCommand : Obligations.CmdWriteStartsCommand := fun _ w hb => hostWrite_reg hb .cmd w

/-- Settles O17: each offset is its register's, and the halves of VAL and RES are in the statement's spelling. -/
theorem hostReadsRegisters : Obligations.HostReadsRegisters := by
  intro s hb
  have h := hostRead_reg hb
  simp only [← extractLsb'_high_eq_setWidth]
  simp only [← extractLsb'_low_eq_setWidth, List.forall_mem_cons]
  exact ⟨h .cmd, h .status, h .off, h .len, h .valLo, h .valHi, h .resLo, h .resHi, h .dlen, h .tlen, h .bccAcc, h .addAcc,
    h .crcAcc, h .crcMode, h .errInfo, List.forall_mem_nil _⟩

/-- Settles O18: each offset is its register's, with the halves of VAL in the statement's spelling. -/
theorem hostWritesRegisters : Obligations.HostWritesRegisters := by
  intro s w hb
  have h := fun r => hostWrite_reg hb r w
  simp only [← extractLsb'_high_eq_setWidth]
  simp only [← extractLsb'_low_eq_setWidth, List.forall_mem_cons]
  exact ⟨h .off, h .len, h .valLo, h .valHi, h .dlen, h .tlen, h .status, h .resLo, h .resHi, h .bccAcc, h .addAcc, h .crcAcc,
    h .crcMode, h .errInfo, List.forall_mem_nil _⟩

/-! ## Saved accumulators -/

/-- VAL[31:0] of a 32-bit value saved to VAL. -/
theorem valWord_saved (s : State) (a : Word) : valWord { s with val := a.setWidth 64 } = a := by
  rw [valWord, extractLsb'_low_eq_setWidth, BitVec.setWidth_setWidth_of_le _ (by decide), BitVec.setWidth_eq]

/-- CRC_INIT with the mode that CRC_MODE held. -/
theorem exec_crcInit_held {m : Word} (hm : m = 0x00000001#32 ∨ m = 0x00000002#32) (s : State) :
    exec (.crcInit (m.setWidth 2)) s = .next (completed { s with crcMode := m, crcAcc := valWord s }) := by
  rcases hm with rfl | rfl <;> rfl

/-- Settles O59: each INIT loads VAL[31:0], which is the saved value, and CRC_INIT the saved mode. -/
theorem initRestoresASavedAccumulator : Obligations.InitRestoresASavedAccumulator := fun s t hm =>
  ⟨⟨_, rfl, valWord_saved t s.bccAcc⟩, ⟨_, rfl, valWord_saved t s.addAcc⟩,
    ⟨_, exec_crcInit_held hm _, valWord_saved t s.crcAcc, rfl⟩⟩

end Sys2Proof.Machine

namespace Sys2Proof.Machine

/-! ## The waiting command -/

/-- While a command waits, the host acts and the time left falls by one (log entry 3). -/
theorem step_waiting {s : State} {w : Word} {k : Nat} (hp : s.pending = some ⟨w, k + 1⟩) :
    step s = hostStep { s with pending := some ⟨w, k⟩ } := by
  simp only [step, hp]

/-- On a busy device a host action other than RST moves the host and the counter of draws alone (R67, R70, R324). -/
theorem hostStep_busy {s t : State} (hb : s.status.getLsbD 0 = true) (hr : s.host.prog[s.host.pc]? ≠ some .reset)
    (h : hostStep s = .next t) : t = { s with host := t.host, draws := t.draws } := by
  rcases hostStep_next h with ⟨ag, d, rfl⟩ | ⟨hreset, -⟩ | ⟨hidle, -⟩
  · rfl
  · exact absurd hreset hr
  · exact absurd (hb.symm.trans hidle) (by decide)

/-- Settles O14: a step of a waiting device is a host action on the same state but for the time left. -/
theorem busyDeviceKeepsItsState : Obligations.BusyDeviceKeepsItsState := by
  intro s t w k hp hb hr hs
  rw [step_waiting hp] at hs
  exact hostStep_busy (s := { s with pending := some ⟨w, k⟩ }) hb hr hs

/-! ## The host's accesses of the buffers, refused accesses, and what a read keeps -/

/-- A DBUF cell in its window (R61). -/
theorem locateOffset_dcell {c : Config} {i : Nat} (hi : i < c.bufCap) (ho : 0x10000 + i < 0x20000) :
    locateOffset c (0x10000 + i) 8 = .ok (.dcell i) := by
  rw [locateOffset, if_neg (by omega), if_pos (by omega), if_pos rfl, Nat.add_sub_cancel_left, if_pos hi]

/-- A TBUF cell in its window (R61). -/
theorem locateOffset_tcell {c : Config} {i : Nat} (hi : i < c.txtCap) :
    locateOffset c (0x80000 + i) 8 = .ok (.tcell i) := by
  rw [locateOffset, if_neg (by omega), if_neg (by omega), if_pos (by omega), if_pos rfl, Nat.add_sub_cancel_left, if_pos hi]

/-- A host read of a target of the idle device that holds no value stops (R39). -/
theorem hostRead_unwritten {s : State} {o width : Nat} {tg : Target} (hb : s.status.getLsbD 0 = false)
    (ho : o < 0x100000) (hl : locateOffset s.cfg o width = .ok tg) (hv : readTarget tg s = none) :
    hostRead (s.cfg.devBase + o) width s = .fault .unwrittenRead := by
  rw [hostRead, locate_window ho, hl]
  simp only [busyBit, hb, Bool.false_eq_true, false_and, if_false, hv]

/-- The cell that one byte write leaves holds the low byte of the data, and every other cell is as before (log entry 15). -/
theorem readCell_writeCell_lowByte (m : Memory) (i : Nat) (w : Word) (k : Nat) :
    readCell (writeCell m i (w.extractLsb' 0 8)) k = if k = i then some (w.setWidth 8) else readCell m k := by
  rw [readCell_writeCell, BitVec.setWidth_eq_extractLsb' (by decide)]

/-- A host read of a buffer cell of the idle device: the byte zero-extended, or the fault at an unwritten cell (R39). -/
theorem hostRead_cell {s : State} {o i : Nat} {m : Memory} {tg : Target} (hb : s.status.getLsbD 0 = false)
    (ho : o < 0x100000) (hl : locateOffset s.cfg o 8 = .ok tg)
    (hv : readTarget tg s = (readCell m i).map fun b => b.setWidth 32) :
    (∀ b, readCell m i = some b →
      hostRead (s.cfg.devBase + o) 8 s = .next (hostSaw (s.cfg.devBase + o) (b.setWidth 32) s)) ∧
    (readCell m i = none → hostRead (s.cfg.devBase + o) 8 s = .fault .unwrittenRead) := by
  constructor
  · intro b hcell
    exact hostRead_idle hb ho hl (by rw [hv, hcell]; rfl)
  · intro hcell
    exact hostRead_unwritten hb ho hl (by rw [hv, hcell]; rfl)

/-- Settles O19: the legal capacities (R6) keep each cell within its buffer's window, where the access reaches that cell
and no other. -/
theorem hostReachesBufferCells : Obligations.HostReachesBufferCells := by
  intro s w i hb hc
  have hbuf := hc.bufCap_le
  have htxt := hc.txtCap_le
  simp only [Nat.add_assoc]
  constructor
  · intro hi
    have hl := locateOffset_dcell hi (by omega)
    exact ⟨⟨_, hostWrite_idle hb (by omega) hl w, readCell_writeCell_lowByte s.dbuf i w⟩, hostRead_cell hb (by omega) hl rfl⟩
  · intro hi
    have hl := locateOffset_tcell hi
    exact ⟨⟨_, hostWrite_idle hb (by omega) hl w, readCell_writeCell_lowByte s.tbuf i w⟩, hostRead_cell hb (by omega) hl rfl⟩

/-- Settles O21: whether R62 admits an access is looked up before BUSY is (log entry 9), in every state. -/
theorem unadmittedAccessIsRefused : Obligations.UnadmittedAccessIsRefused := by
  intro s w o width ho ha
  have hl : locate s.cfg (s.cfg.devBase + o) width = .error .hostAccess :=
    (locate_window ho).trans (locateOffset_refused ha)
  exact ⟨by rw [hostWrite, hl], by rw [hostRead, hl]⟩

/-- Settles O24: a read that goes on adds to what the host has seen, and a busy one moves the counter of draws too. -/
theorem hostReadsHaveNoSideEffect : Obligations.HostReadsHaveNoSideEffect := by
  intro s t addr width h
  obtain ⟨l, d, rfl⟩ := hostRead_next h
  rfl

end Sys2Proof.Machine

namespace Sys2Proof

/-! ## The command word -/

/-- The decoder accepts a word just when none of R94's conditions holds, and answers what the opcode map says. -/
theorem decode_eq_ok {w : Word} {i : Instr} :
    decode w = .ok i ↔
      rsvField w = 0 ∧ instrOfOpcode (opcField w) (modeField w) = some i ∧ (modeField w = 0 ∨ opcField w = 0x40#8) := by
  unfold decode
  split
  · next hrsv => exact iff_of_false nofun fun h => hrsv h.1
  · next hrsv =>
    cases instrOfOpcode (opcField w) (modeField w) with
    | none => exact iff_of_false nofun fun h => nomatch h.2.1
    | some j =>
      dsimp only
      split
      · next hmode => exact iff_of_false nofun fun h => h.2.2.elim hmode.1 hmode.2
      · next hmode =>
        rw [and_iff_right (not_not.mp hrsv), and_iff_left (by tauto), Except.ok.injEq, Option.some.injEq]

/-- The decoder rejects a word just when one of R94's conditions holds. -/
theorem decode_eq_error {w : Word} :
    (∃ r, decode w = .error r) ↔
      instrOfOpcode (opcField w) (modeField w) = none ∨ rsvField w ≠ 0 ∨ (modeField w ≠ 0 ∧ opcField w ≠ 0x40#8) := by
  unfold decode
  split
  · next hrsv => exact iff_of_true ⟨_, rfl⟩ (.inr (.inl hrsv))
  · next hrsv =>
    cases instrOfOpcode (opcField w) (modeField w) with
    | none => exact iff_of_true ⟨_, rfl⟩ (.inl rfl)
    | some j =>
      dsimp only
      split
      · next hmode => exact iff_of_true ⟨_, rfl⟩ (.inr (.inr hmode))
      · next hmode => exact iff_of_false nofun (by simp only [reduceCtorEq, false_or, hmode, hrsv, not_false_eq_true])

/-- MODE of a word the decoder accepts is its command's: CRC_INIT's operand, and zero in every other command. -/
theorem modeField_eq_modeOf {w : Word} {i : Instr}
    (hi : instrOfOpcode (opcField w) (modeField w) = some i) (hm : modeField w = 0 ∨ opcField w = 0x40#8) :
    modeField w = modeOf i := by
  obtain ⟨hopc, hmode⟩ := instrOfOpcode_eq_some.mp hi
  by_cases hcrc : ∃ m, i = .crcInit m
  · obtain ⟨m, rfl⟩ := hcrc
    exact (hmode m rfl).symm
  · rw [modeOf_eq_zero (not_exists.mp hcrc)]
    exact hm.resolve_right fun h => hcrc (opcodeOf_eq_crcInit.mp (hopc ▸ h))

/-- The decoder answers a command's word with the command. -/
theorem decode_encode (i : Instr) : decode (encode i) = .ok i := by
  rw [decode_eq_ok, rsvField_encode, modeField_encode, opcField_encode]
  refine ⟨rfl, instrOfOpcode_eq_some.mpr ⟨rfl, ?_⟩, ?_⟩
  · rintro m rfl; rfl
  · rw [opcodeOf_eq_crcInit]
    exact or_iff_not_imp_right.mpr fun h => modeOf_eq_zero (not_exists.mp h)

/-- The word of a command is the only one the decoder answers with it. -/
theorem eq_encode_of_decode {w : Word} {i : Instr} (h : decode w = .ok i) : w = encode i := by
  obtain ⟨hrsv, hi, hm⟩ := decode_eq_ok.mp h
  calc w = rsvField w ++ modeField w ++ opcField w := (fields_append w).symm
    _ = encode i := by rw [encode, hrsv, modeField_eq_modeOf hi hm, (instrOfOpcode_eq_some.mp hi).1]; rfl

/-- Settles O1: a word is its three fields, and the decoder fixes each of them. -/
theorem decodeInvertsEncodeExactly : Obligations.DecodeInvertsEncodeExactly :=
  fun _ i => ⟨eq_encode_of_decode, fun h => h ▸ decode_encode i⟩

/-- Settles O3: each is the word of the command the map names. -/
theorem mapWordsDecode : Obligations.MapWordsDecode :=
  ⟨decode_encode .unpack16, decode_encode .pack64, decode_encode .hexchar, decode_encode .hexdump, decode_encode .hexdec,
    decode_encode .bccFinb, decode_encode .addFin, decode_encode (.crcInit 0b01#2), decode_encode (.crcInit 0b10#2),
    decode_encode .crcFinb⟩

/-! ## Illegal words -/

/-- The gaps of the opcode map (R94). -/
theorem instrOfOpcode_eq_none {opc : Byte} {mode : BitVec 2} :
    instrOfOpcode opc mode = none ↔
      opc.toNat = 0x00 ∨ (0x13 ≤ opc.toNat ∧ opc.toNat ≤ 0x17) ∨ (0x19 ≤ opc.toNat ∧ opc.toNat ≤ 0x1F) ∨
        (0x25 ≤ opc.toNat ∧ opc.toNat ≤ 0x2F) ∨ (0x35 ≤ opc.toNat ∧ opc.toNat ≤ 0x3F) ∨
        (0x45 ≤ opc.toNat ∧ opc.toNat ≤ 0xFF) := by
  unfold instrOfOpcode
  split
  case h_35 =>
    simp only [imp_false] at *
    exact iff_of_true trivial (by bv_omega)
  all_goals exact iff_of_false nofun (by decide)

/-- OPC as a number. -/
theorem opcField_toNat (w : Word) : (opcField w).toNat = w.toNat % 0x100 := by
  rw [opcField, BitVec.extractLsb'_toNat, Nat.shiftRight_zero]

/-- MODE as a number. -/
theorem modeField_toNat (w : Word) : (modeField w).toNat = w.toNat / 0x100 % 4 := by
  rw [modeField, BitVec.extractLsb'_toNat, Nat.shiftRight_eq_div_pow]

/-- RSV as a number. -/
theorem rsvField_toNat (w : Word) : (rsvField w).toNat = w.toNat / 0x400 := by
  rw [rsvField, BitVec.extractLsb'_toNat, Nat.shiftRight_eq_div_pow]
  exact Nat.mod_eq_of_lt (by have := w.isLt; omega)

end Sys2Proof

namespace Sys2Proof.Machine

/-- R94's conditions, in numbers, are those by which the decoder rejects a word. -/
theorem illegalWord_iff_decode_error {w : Word} : IllegalWord w ↔ ∃ r, decode w = .error r := by
  simp only [IllegalWord, decode_eq_error, instrOfOpcode_eq_none, ne_eq, ← BitVec.toNat_inj, opcField_toNat, modeField_toNat,
    rsvField_toNat, or_assoc, BitVec.ofNat_eq_ofNat, BitVec.toNat_ofNat]

/-- The command engine answers an illegal word with ILLEGAL_COMMAND (R94, R95). -/
theorem runCommand_illegal {w : Word} {r : DecodeReject} (h : decode w = .error r) (s : State) :
    runCommand w s = .next (failed 0x01#8 w s) := by
  rw [runCommand, h]
  have hinfo : BitVec.ofInt 32 w.toNat = w := by rw [BitVec.ofInt_natCast, BitVec.ofNat_toNat, BitVec.setWidth_eq]
  exact (complete_raise .illegalCommand w.toNat s).trans (by rw [hinfo]; rfl)

/-- A pending word whose time has come is run (R290). -/
theorem step_due {s : State} {w : Word} (hp : s.pending = some ⟨w, 0⟩) : step s = runCommand w s := by
  simp only [step, hp]

/-- Settles O2: the decoder rejects the illegal words, and the command engine reports a rejected one. -/
theorem illegalWordRaisesIllegalCommand : Obligations.IllegalWordRaisesIllegalCommand := by
  refine fun w => ⟨illegalWord_iff_decode_error, fun s hw hp => ?_⟩
  obtain ⟨r, hr⟩ := illegalWord_iff_decode_error.mp hw
  rw [step_due hp, runCommand_illegal hr]

/-! ## The host's `exec` -/

/-- However a command ends, the device is then idle, with the parameters it had (R290). -/
theorem runCommand_ends_idle {w : Word} {s t : State} (h : runCommand w s = .next t) :
    t.status.getLsbD 0 = false ∧ t.pending = none ∧ t.cfg = s.cfg := by
  rcases runCommand_next h with ⟨e, info, rfl⟩ | ⟨i, -, s', hw, rfl⟩
  · exact ⟨(failed_status_fields _ _ s).1, rfl, rfl⟩
  · refine ⟨?_, rfl, by rw [hw.frame]; rfl⟩
    rw [completed_status, BitVec.getLsbD_and]
    exact Bool.and_false _

/-- With nothing pending the host acts. -/
theorem step_idle {s : State} (hp : s.pending = none) : step s = hostStep s := by
  simp only [step, hp]

/-- A host read of STATUS answers its value, whether the device is busy or not (R323). -/
theorem hostRead_status (s : State) :
    hostRead (s.cfg.devBase + regOffset .status) 32 s = .next (noteRead (s.cfg.devBase + regOffset .status) s.status s) := by
  rw [hostRead, locate_window (by decide), locateOffset_reg]
  simp only [ne_eq, not_true_eq_false, and_false, if_false]
  rfl

/-- A taken branch goes to the place of its label. -/
theorem hostGoto_eq {s : State} {l k : Nat} (h : findLabel l s.host.prog = some k) :
    hostGoto l s = .next { s with host := { s.host with pc := k } } := by
  rw [hostGoto, h]

/-- A host that runs `exec` of the word `w`, its wait's label being `l`, at place `pc` of it (R97). -/
def execHost (c : Config) (w : Word) (l pc : Nat) (seen : List (Nat × Word)) : HostAgent := ⟨asmExec c w l, pc, seen, false⟩

/-- The label of `wait` stands at place 1 of `exec`. -/
theorem findLabel_wait (c : Config) (w : Word) (l : Nat) : findLabel l (asmExec c w l) = some 1 := by
  simp [findLabel, asmExec, asmWait, asmWr]

/-- The host is in the `wait` of its `exec`: before the label, before the read of STATUS, or before the branch on the value
`v` it has read. -/
inductive Polls (c : Config) (w : Word) (l : Nat) (v : Word) : HostAgent → Prop
  | label (seen : List (Nat × Word)) : Polls c w l v (execHost c w l 1 seen)
  | read (seen : List (Nat × Word)) : Polls c w l v (execHost c w l 2 seen)
  | branch (seen : List (Nat × Word)) : Polls c w l v (execHost c w l 3 ((c.devBase + regOffset .status, v) :: seen))

section
variable (s : State) (w : Word) (l d : Nat) (seen : List (Nat × Word))

/-- `w:`, the label of `wait` (R97). -/
theorem hostStep_waitLabel :
    hostStep (withHost (execHost s.cfg w l 1 seen) d s) = .next (withHost (execHost s.cfg w l 2 seen) d s) := rfl

/-- `rd STATUS`: the value is what the branch then looks at (R97). -/
theorem hostStep_waitRead :
    hostStep (withHost (execHost s.cfg w l 2 seen) d s) =
      .next (withHost (execHost s.cfg w l 3 ((s.cfg.devBase + regOffset .status, s.status) :: seen)) d s) :=
  hostRead_status (withHost (execHost s.cfg w l 3 seen) d s)

/-- The branch of `wait` looks at BUSY of the STATUS it has read. -/
theorem lastField_busy (v : Word) (pc : Nat) :
    lastField .status 0 0
      (withHost (execHost s.cfg w l pc ((s.cfg.devBase + regOffset .status, v) :: seen)) d s) = some (v.toNat % 2) := by
  simp [lastField, withHost, execHost, lastSeen]

/-- `bnz STATUS.BUSY, w` is taken just when BUSY was read as 1 (R97). -/
theorem hostStep_waitBranch (v : Word) :
    hostStep (withHost (execHost s.cfg w l 3 ((s.cfg.devBase + regOffset .status, v) :: seen)) d s) =
      .next (withHost (execHost s.cfg w l (if v.getLsbD 0 then 1 else 4)
        ((s.cfg.devBase + regOffset .status, v) :: seen)) d s) := by
  have hbit : (v.toNat % 2 != 0) = v.getLsbD 0 := by
    rw [BitVec.getLsbD, Nat.testBit_zero]
    rcases Nat.mod_two_eq_zero_or_one v.toNat with h | h <;> rw [h] <;> rfl
  change hostAction (.branch true .status 0 0 l)
    (withHost (execHost s.cfg w l 4 ((s.cfg.devBase + regOffset .status, v) :: seen)) d s) = _
  simp only [hostAction, lastField_busy, hbit]
  split
  · exact hostGoto_eq (findLabel_wait s.cfg w l)
  · rfl

end

/-- BUSY is set from a CMD write on (R290). -/
theorem statusBusy_getLsbD_zero : statusBusy.getLsbD 0 = true := by decide

/-- While the device is busy the host goes on polling (R323). -/
theorem hostStep_polls_busy {s : State} {w : Word} {l : Nat} {h : HostAgent} (d : Nat) (hb : s.status.getLsbD 0 = true)
    (hp : Polls s.cfg w l s.status h) :
    ∃ h', Polls s.cfg w l s.status h' ∧ hostStep (withHost h d s) = .next (withHost h' d s) := by
  cases hp with
  | label seen => exact ⟨_, .read seen, hostStep_waitLabel s w l d seen⟩
  | read seen => exact ⟨_, .branch seen, hostStep_waitRead s w l d seen⟩
  | branch seen =>
    have hbranch := hostStep_waitBranch s w l d seen s.status
    rw [if_pos hb] at hbranch
    exact ⟨_, .label _, hbranch⟩

/-- A command with `k` host actions left comes to its time with the host still polling (R329). -/
theorem run_waiting (s : State) {w : Word} {l : Nat} (d k : Nat) {h : HostAgent} (hp : Polls s.cfg w l statusBusy h) :
    ∃ h', core.run k (withHost h d (startCommand w k s)) = .next (withHost h' d (startCommand w 0 s)) ∧
      Polls s.cfg w l statusBusy h' := by
  induction k generalizing h with
  | zero => exact ⟨h, rfl, hp⟩
  | succ k ih =>
    obtain ⟨h₁, hp₁, hstep⟩ := hostStep_polls_busy (s := startCommand w k s) d statusBusy_getLsbD_zero hp
    obtain ⟨h₂, hrun, hp₂⟩ := ih hp₁
    exact ⟨h₂, (core_run_succ ((step_waiting rfl).trans hstep) k).trans hrun, hp₂⟩

/-- A step of the host on the idle device is a step of the run. -/
theorem core_run_hostStep {t : State} (hp : t.pending = none) {h h' : HostAgent} {d : Nat}
    (hs : hostStep (withHost h d t) = .next (withHost h' d t)) (n : Nat) :
    core.run (n + 1) (withHost h d t) = core.run n (withHost h' d t) :=
  core_run_succ ((step_idle (s := withHost h d t) hp).trans hs) n

/-- From the read of STATUS on, the idle device lets the host out of its `wait`: the branch is not taken. -/
theorem run_waitRead_idle {t : State} (w : Word) (l d : Nat) (hb : t.status.getLsbD 0 = false) (hp : t.pending = none)
    (seen : List (Nat × Word)) :
    ∃ seen', core.run 2 (withHost (execHost t.cfg w l 2 seen) d t) = .next (withHost (execHost t.cfg w l 4 seen') d t) := by
  have hbranch := hostStep_waitBranch t w l d seen t.status
  rw [hb] at hbranch
  exact ⟨_, (core_run_hostStep hp (hostStep_waitRead t w l d seen) 1).trans (core_run_hostStep hp hbranch 0)⟩

/-- From its label on: STATUS is read after it. -/
theorem run_waitLabel_idle {t : State} (w : Word) (l d : Nat) (hb : t.status.getLsbD 0 = false) (hp : t.pending = none)
    (seen : List (Nat × Word)) :
    ∃ seen', core.run 3 (withHost (execHost t.cfg w l 1 seen) d t) = .next (withHost (execHost t.cfg w l 4 seen') d t) := by
  obtain ⟨seen', hout⟩ := run_waitRead_idle w l d hb hp seen
  exact ⟨seen', (core_run_hostStep hp (hostStep_waitLabel t w l d seen) 2).trans hout⟩

/-- From each place of the `wait`: a branch on an old STATUS goes back to the label first. -/
theorem run_wait_idle {t : State} {w : Word} {l : Nat} (d : Nat) {h : HostAgent} (hb : t.status.getLsbD 0 = false)
    (hp : t.pending = none) (hpoll : Polls t.cfg w l statusBusy h) :
    ∃ n seen, core.run n (withHost h d t) = .next (withHost (execHost t.cfg w l 4 seen) d t) := by
  cases hpoll with
  | label seen => exact ⟨3, run_waitLabel_idle w l d hb hp seen⟩
  | read seen => exact ⟨2, run_waitRead_idle w l d hb hp seen⟩
  | branch seen =>
    obtain ⟨seen', hout⟩ := run_waitLabel_idle w l d hb hp ((t.cfg.devBase + regOffset .status, statusBusy) :: seen)
    exact ⟨4, seen', (core_run_hostStep hp (hostStep_waitBranch t w l d seen statusBusy) 3).trans hout⟩

/-- The CMD write of `exec` starts the command and takes the host to its `wait` (R22, R290). -/
theorem step_execWrite {s : State} {w : Word} {l : Nat} (hb : s.status.getLsbD 0 = false) (hp : s.pending = none)
    (hf : s.host.failed = false) (hprog : s.host.prog = asmExec s.cfg w l) (hpc : s.host.pc = 0) :
    step s = .next (withHost (execHost s.cfg w l 1 s.host.seen) (s.draws + 1)
      (startCommand w (Config.latency s.draws) s)) := by
  have hhost : s = withHost (execHost s.cfg w l 0 s.host.seen) s.draws s := by
    rw [execHost, ← hprog, ← hpc, ← hf]; rfl
  rw [step_idle hp]
  calc hostStep s = hostStep (withHost (execHost s.cfg w l 0 s.host.seen) s.draws s) := congrArg hostStep hhost
    _ = .next (writeReg .cmd w (withHost (execHost s.cfg w l 1 s.host.seen) s.draws s)) :=
      hostWrite_reg (s := withHost (execHost s.cfg w l 1 s.host.seen) s.draws s) hb .cmd w

/-- Settles O15: the CMD write, the host's polling while the command waits, the command's completion, which neither reads nor
writes what is the host's, and the host's way out of its `wait`. -/
theorem hostExecReturnsTheCommandsEffect : Obligations.HostExecReturnsTheCommandsEffect := by
  intro s t w l hb hp hf hprog hpc ht
  obtain ⟨htb, htp, htc⟩ := runCommand_ends_idle ht
  have hwrite := step_execWrite hb hp hf hprog hpc
  obtain ⟨h, hwait, hpoll⟩ := run_waiting s (s.draws + 1) (Config.latency s.draws) (.label (w := w) (l := l) s.host.seen)
  have hdue : step (withHost h (s.draws + 1) (startCommand w 0 s)) = .next (withHost h (s.draws + 1) t) := by
    rw [step_due rfl, runCommand_withHost, ht]; rfl
  obtain ⟨n, seen, hout⟩ := run_wait_idle (s.draws + 1) htb htp (htc ▸ hpoll)
  have hdone := core_run_trans hwait ((core_run_succ hdue n).trans hout)
  exact ⟨_, _, (core_run_succ hwrite _).trans hdone, rfl, rfl, rfl⟩

end Sys2Proof.Machine

namespace Sys2Proof.Machine

/-! ## byte_packer: UNPACK, PACK and APPEND -/

/-- A command whose pseudocode is that of an unpack of `n` bytes does what R122 to R124 say of one. -/
theorem unpackMeans_of_exec {i : Instr} {w : Word} {n : Nat} (hd : decode w = .ok i)
    (hx : ∀ s, exec i s = complete (unpack n s) s) : UnpackMeans i w n := by
  refine ⟨hd, fun s => ⟨fun h => ?_, fun h hn => ?_, fun bs h hn hl hc => ?_⟩⟩
  · rw [hx, unpack_off_neg h, complete_raise]; rfl
  · rw [hx, unpack_range h hn, complete_raise]; rfl
  · rw [hx, unpack_cells h hn hl hc, complete_ok, joinBytes_eq_ofNat]

/-- Settles O25: the three commands are unpacks of 2, 4 and 8 bytes. -/
theorem unpackReadsBigEndian : Obligations.UnpackReadsBigEndian :=
  ⟨unpackMeans_of_exec (decode_encode .unpack16) fun _ => rfl, unpackMeans_of_exec (decode_encode .unpack32) fun _ => rfl,
    unpackMeans_of_exec (decode_encode .unpack64) fun _ => rfl⟩

/-- A store of `n` bytes of VAL that fits, in the words of the statements (R68). -/
theorem growWrite_growWritten {s : State} {o n : Nat} (h : o + n ≤ s.cfg.bufCap) :
    ∃ m, growWrite o n s.val s =
        .ok { s with
          dbuf := m
          dlen := if s.dlen.toNat < o + n then BitVec.ofNat 32 (o + n) else s.dlen } ∧
      GrowWritten s o n m := by
  obtain ⟨m, hm, -, -, hcells⟩ := growWrite_fits (v := s.val) h
  refine ⟨m, hm, fun k => ?_⟩
  rw [hcells, BitVec.setWidth_ushiftRight_eq_extractLsb]

/-- A command whose pseudocode is that of a pack of `n` bytes does what R125 to R127 say of one. -/
theorem packMeans_of_exec {i : Instr} {w : Word} {n : Nat} (hd : decode w = .ok i)
    (hx : ∀ s, exec i s = complete (pack n s) s) : PackMeans i w n := by
  refine ⟨hd, fun s => ⟨fun h => ?_, fun h hn => ?_, fun h hn => ?_⟩⟩
  · rw [hx, pack_off_neg h, complete_raise]; rfl
  · have hend : ((s.off.toInt.toNat + n : Nat) : Int) = s.off.toInt + n := by omega
    rw [hx, pack_nonneg h, growWrite_capacity (by omega), complete_raise, hend]; rfl
  · obtain ⟨m, hm, hgrow⟩ := growWrite_growWritten (s := s) (o := s.off.toInt.toNat) (n := n) (by omega)
    exact ⟨m, by rw [hx, pack_nonneg h, hm, complete_ok], hgrow⟩

/-- Settles O26: the three commands are packs of 2, 4 and 8 bytes. -/
theorem packWritesBigEndianAndGrows : Obligations.PackWritesBigEndianAndGrows :=
  ⟨packMeans_of_exec (decode_encode .pack16) fun _ => rfl, packMeans_of_exec (decode_encode .pack32) fun _ => rfl,
    packMeans_of_exec (decode_encode .pack64) fun _ => rfl⟩

/-- A command whose pseudocode is that of an append of `n` bytes does what R128 to R130 say of one: the end of the stored bytes
is always past DLEN, so the buffer always grows. -/
theorem appendMeans_of_exec {i : Instr} {w : Word} {n : Nat} (hpos : 0 < n) (hd : decode w = .ok i)
    (hx : ∀ s, exec i s = complete (append n s) s) : AppendMeans i w n := by
  refine ⟨hd, fun s => ⟨fun hn => ?_, fun hn => ?_⟩⟩
  · rw [hx, append, growWrite_capacity hn, complete_raise, BitVec.ofInt_natCast]; rfl
  · obtain ⟨m, hm, hgrow⟩ := growWrite_growWritten hn
    exact ⟨m, by rw [hx, append, hm, complete_ok, if_pos (Nat.lt_add_of_pos_right hpos)], hgrow⟩

/-- Settles O27: the three commands are appends of 2, 4 and 8 bytes. -/
theorem appendExtendsTheBuffer : Obligations.AppendExtendsTheBuffer :=
  ⟨appendMeans_of_exec (by decide) (decode_encode .append16) fun _ => rfl,
    appendMeans_of_exec (by decide) (decode_encode .append32) fun _ => rfl,
    appendMeans_of_exec (by decide) (decode_encode .append64) fun _ => rfl⟩

/-! ## The packer round trip (R137) -/

/-- The cells that the grow rule stores hold VAL's bytes. -/
theorem GrowWritten.cellsHold {s : State} {o n : Nat} {m : Memory} (h : GrowWritten s o n m) :
    CellsHold m o (splitBytes n s.val) := by
  intro j b hb
  rw [splitBytes_getElem?] at hb
  by_cases hj : j < n
  · rw [h, if_pos ⟨by omega, by omega⟩, BitVec.setWidth_ushiftRight_eq_extractLsb, Nat.add_sub_cancel_left, ← hb,
      if_pos hj]
  · rw [if_neg hj] at hb; cases hb

/-- An unpack of cells that hold the `n` bytes of a value answers the value's low bytes. -/
theorem UnpackMeans.exec_splitBytes {u : Instr} {w : Word} {n : Nat} (hu : UnpackMeans u w n) {t : State} {v : DWord}
    (h : 0 ≤ t.off.toInt) (hn : t.off.toInt + n ≤ t.dlen.toNat)
    (hc : CellsHold t.dbuf t.off.toInt.toNat (splitBytes n v)) :
    exec u t = .next (completed { t with res := BitVec.ofNat 64 (v.toNat % 256 ^ n) }) := by
  obtain ⟨-, hmeans⟩ := hu
  obtain ⟨-, -, hwithin⟩ := hmeans t
  rw [← bigEndian_splitBytes]
  exact hwithin _ h hn (splitBytes_length n v) hc

/-- DLEN after the grow rule reaches the end of the stored bytes. -/
theorem le_toNat_grownLength (d : Word) {e : Nat} (he : e < 2 ^ 32) :
    e ≤ (if d.toNat < e then BitVec.ofNat 32 e else d).toNat := by
  split
  · rw [BitVec.toNat_ofNat, Nat.mod_eq_of_lt he]
  · next h => exact Nat.le_of_not_lt h

/-- A pack and an unpack of the same width make a round trip: the end of the access fits DLEN, since OFF is below 2^31. -/
theorem PackMeans.roundTrip {p u : Instr} {wp wu : Word} {n : Nat} (hn : n ≤ 8) (hp : PackMeans p wp n)
    (hu : UnpackMeans u wu n) : PackUnpackRoundTrip p u n := by
  intro s h hfit
  obtain ⟨-, hmeans⟩ := hp
  obtain ⟨-, -, hwrites⟩ := hmeans s
  obtain ⟨m, hx, hgrow⟩ := hwrites h hfit
  have hoff := toInt_lt_two_pow_31 s.off
  have hend := le_toNat_grownLength s.dlen (e := s.off.toInt.toNat + n) (by omega)
  refine ⟨_, splitBytes n s.val, hx, splitBytes_length _ _, hgrow.cellsHold, bigEndian_splitBytes _ _,
    hu.exec_splitBytes h ?_ hgrow.cellsHold⟩
  simp only [completed_off, completed_dlen]
  omega

/-- So do an append to the empty buffer and an unpack at OFF 0. -/
theorem AppendMeans.roundTrip {a u : Instr} {wa wu : Word} {n : Nat} (hn : n ≤ 8) (ha : AppendMeans a wa n)
    (hu : UnpackMeans u wu n) : AppendUnpackRoundTrip a u n := by
  intro s hempty hfit
  obtain ⟨-, hmeans⟩ := ha
  obtain ⟨-, hwrites⟩ := hmeans s
  have hoff : (0 : Word).toInt = 0 := rfl
  have hd : s.dlen.toNat = 0 := by rw [hempty]; rfl
  rw [hd, Nat.zero_add] at hwrites
  obtain ⟨m, hx, hgrow⟩ := hwrites hfit
  refine ⟨_, splitBytes n s.val, hx, splitBytes_length _ _, hgrow.cellsHold, bigEndian_splitBytes _ _,
    hu.exec_splitBytes hoff.ge ?_ hgrow.cellsHold⟩
  simp only [completed_dlen, BitVec.toNat_ofNat, hoff]
  omega

/-- Settles O31: each pair of commands of one width makes the round trip. -/
theorem packThenUnpackReturnsTheValue : Obligations.PackThenUnpackReturnsTheValue := by
  obtain ⟨hu16, hu32, hu64⟩ := unpackReadsBigEndian
  obtain ⟨hp16, hp32, hp64⟩ := packWritesBigEndianAndGrows
  obtain ⟨ha16, ha32, ha64⟩ := appendExtendsTheBuffer
  exact ⟨⟨hp16.roundTrip (by decide) hu16, hp32.roundTrip (by decide) hu32, hp64.roundTrip (by decide) hu64⟩,
    ha16.roundTrip (by decide) hu16, ha32.roundTrip (by decide) hu32, ha64.roundTrip (by decide) hu64⟩

/-! ## byte_packer: the flips -/

/-- The low `2h` bits of `v` with their two halves swapped, as a number. -/
def halvesSwapped (h v : Nat) : Nat := v % 2 ^ h * 2 ^ h + v / 2 ^ h % 2 ^ h

/-- The swap reads the low `2h` bits alone. -/
theorem halvesSwapped_mod (h v : Nat) : halvesSwapped h (v % 2 ^ (h + h)) = halvesSwapped h v := by
  rw [halvesSwapped, pow_add, Nat.mod_mul_left_mod, Nat.mod_mul_right_div_self, Nat.mod_mod, halvesSwapped]

/-- The swapped halves fit `2h` bits. -/
theorem halvesSwapped_lt (h v : Nat) : halvesSwapped h v < 2 ^ (h + h) := by
  have hhigh : v % 2 ^ h + 1 ≤ 2 ^ h := Nat.mod_lt _ (Nat.two_pow_pos h)
  have hlow : v / 2 ^ h % 2 ^ h < 2 ^ h := Nat.mod_lt _ (Nat.two_pow_pos h)
  calc halvesSwapped h v < v % 2 ^ h * 2 ^ h + 2 ^ h := Nat.add_lt_add_left hlow _
    _ = (v % 2 ^ h + 1) * 2 ^ h := (Nat.succ_mul _ _).symm
    _ ≤ 2 ^ h * 2 ^ h := Nat.mul_le_mul_right _ hhigh
    _ = 2 ^ (h + h) := (pow_add 2 h h).symm

/-- The halves of a swap are the halves of the number, the other way round; so a second swap restores it. -/
theorem halvesSwapped_halvesSwapped (h v : Nat) : halvesSwapped h (halvesSwapped h v) = v % 2 ^ (h + h) := by
  have hlow : halvesSwapped h v % 2 ^ h = v / 2 ^ h % 2 ^ h := by
    rw [halvesSwapped, Nat.mul_add_mod_self_right, Nat.mod_mod]
  have hhigh : halvesSwapped h v / 2 ^ h % 2 ^ h = v % 2 ^ h := by
    rw [halvesSwapped, Nat.add_comm, Nat.add_mul_div_right _ _ (Nat.two_pow_pos h),
      Nat.div_eq_of_lt (Nat.mod_lt _ (Nat.two_pow_pos h)), Nat.zero_add, Nat.mod_mod]
  rw [halvesSwapped, hlow, hhigh, pow_add, Nat.mod_mul, Nat.add_comm, Nat.mul_comm]

/-- The swap as R131 to R134 write it, the two halves one after the other, widened to RES. -/
theorem setWidth_append_halves {w : Nat} (h : Nat) (x : BitVec w) :
    (x.extractLsb' 0 h ++ x.extractLsb' h h).setWidth 64 = BitVec.ofNat 64 (halvesSwapped h x.toNat) := by
  have hlow : (x.extractLsb' h h).toNat < 2 ^ h := (x.extractLsb' h h).isLt
  apply BitVec.eq_of_toNat_eq
  rw [BitVec.toNat_setWidth, BitVec.toNat_append, ← Nat.shiftLeft_add_eq_or_of_lt hlow, BitVec.extractLsb'_toNat,
    BitVec.extractLsb'_toNat, Nat.shiftRight_zero, Nat.shiftRight_eq_div_pow, Nat.shiftLeft_eq, BitVec.toNat_ofNat,
    halvesSwapped]

/-- The same, of the low `2h` bits of VAL. -/
theorem setWidth_append_low_halves (h : Nat) (v : DWord) :
    ((v.extractLsb' 0 (h + h)).extractLsb' 0 h ++ (v.extractLsb' 0 (h + h)).extractLsb' h h).setWidth 64 =
      BitVec.ofNat 64 (halvesSwapped h v.toNat) := by
  rw [setWidth_append_halves, BitVec.extractLsb'_toNat, Nat.shiftRight_zero, halvesSwapped_mod]

/-- A command that puts the value `f s` into RES does what its statement says of RES. -/
theorem plainCommandMeans_res {i : Instr} {w : Word} {f g : State → DWord} (hd : decode w = .ok i)
    (hx : ∀ s, exec i s = complete (.ok { s with res := f s }) s) (hfg : ∀ s, f s = g s) :
    PlainCommandMeans i w fun s => { s with res := g s } :=
  ⟨hd, fun s => by rw [hx, complete_ok, hfg]⟩

/-- Settles O28: each flip puts the two halves of a low field of VAL one after the other. -/
theorem flipSwapsHalves : Obligations.FlipSwapsHalves :=
  ⟨plainCommandMeans_res (decode_encode .flip8) (fun _ => rfl) fun s => setWidth_append_low_halves 4 s.val,
    plainCommandMeans_res (decode_encode .flip16) (fun _ => rfl) fun s => setWidth_append_low_halves 8 s.val,
    plainCommandMeans_res (decode_encode .flip32) (fun _ => rfl) fun s => setWidth_append_low_halves 16 s.val,
    plainCommandMeans_res (decode_encode .flip64) (fun _ => rfl) fun s =>
      (BitVec.setWidth_eq _).symm.trans (setWidth_append_halves 32 s.val)⟩

/-- A command that swaps the halves of VAL's low `2h` bits is an involution. -/
theorem flipInvolutive_of_swapsHalves {i : Instr} {w : Word} (h : Nat) (hle : h + h ≤ 64)
    (hi : PlainCommandMeans i w fun s => { s with res := BitVec.ofNat 64 (halvesSwapped h s.val.toNat) }) :
    FlipInvolutive i (h + h) := by
  obtain ⟨-, hx⟩ := hi
  intro s
  refine ⟨_, hx s, _, hx _, ?_⟩
  have hfit : halvesSwapped h s.val.toNat < 2 ^ 64 :=
    (halvesSwapped_lt h s.val.toNat).trans_le (Nat.pow_le_pow_right (by decide) hle)
  apply BitVec.eq_of_toNat_eq
  simp only [completed_res, BitVec.toNat_setWidth, BitVec.toNat_ofNat, Nat.mod_eq_of_lt hfit, halvesSwapped_halvesSwapped]

/-- Settles O32: each flip swaps halves. -/
theorem flipIsAnInvolution : Obligations.FlipIsAnInvolution := by
  obtain ⟨h8, h16, h32, h64⟩ := flipSwapsHalves
  exact ⟨flipInvolutive_of_swapsHalves 4 (by decide) h8, flipInvolutive_of_swapsHalves 8 (by decide) h16,
    flipInvolutive_of_swapsHalves 16 (by decide) h32, flipInvolutive_of_swapsHalves 32 (by decide) h64⟩

/-! ## byte_packer: BYTE2U and HEXCHAR -/

/-- VAL[7:0] as a number. -/
theorem valByte_toNat (s : State) : (valByte s).toNat = s.val.toNat % 256 := BitVec.extractLsb'_toNat 0 8 s.val

/-- VAL[15:0] as a number. -/
theorem valHalf_toNat (s : State) : (valHalf s).toNat = s.val.toNat % 65536 := BitVec.extractLsb'_toNat 0 16 s.val

/-- Settles O29: widening a byte twice keeps its number. -/
theorem byte2uWidensTheLowByte : Obligations.Byte2uWidensTheLowByte := by
  refine plainCommandMeans_res (decode_encode .byte2u) (fun _ => rfl) fun s => ?_
  apply BitVec.eq_of_toNat_eq
  simp only [b2u, BitVec.toNat_setWidth, valByte_toNat, BitVec.toNat_ofNat]
  omega

/-- HEXCHAR on the code of a digit. -/
theorem exec_hexchar_digit {s : State} {v : Byte} (h : hexVal (valHalf s) = some v) :
    exec .hexchar s = .next (completed { s with res := v.setWidth 64 }) := by
  rw [exec, execHexchar, h, complete_ok]

/-- HEXCHAR on any other code. -/
theorem exec_hexchar_invalid {s : State} (h : hexVal (valHalf s) = none) :
    exec .hexchar s = .next (failed 0x02#8 (BitVec.ofNat 32 (valHalf s).toNat) s) := by
  rw [exec, execHexchar, h, complete_raise, BitVec.ofInt_natCast]; rfl

/-- Settles O30: `hexVal` accepts just the codes of the digits, and a digit's value fits a byte. -/
theorem hexcharParsesADigit : Obligations.HexcharParsesADigit := by
  refine ⟨decode_encode .hexchar, fun s => ?_⟩
  rw [← valHalf_toNat]
  refine ⟨fun v hv => ?_, fun hv => exec_hexchar_invalid (hexVal_eq_none.mpr hv)⟩
  have hv16 : v < 16 := by unfold IsHexDigit at hv; omega
  have hwiden : (BitVec.ofNat 8 v).setWidth 64 = BitVec.ofNat 64 v := by
    apply BitVec.eq_of_toNat_eq
    simp only [BitVec.toNat_setWidth, BitVec.toNat_ofNat]
    omega
  rw [exec_hexchar_digit (hexVal_of_digit hv), hwiden]

end Sys2Proof.Machine

namespace Sys2Proof.Machine

/-! ## hex_encoder: HEXENC, HEXENCSP and HEXDUMP -/

/-- A negative OFF stops an encoder. -/
theorem encodeRange_off_neg (text : Nat → List Byte → List Byte) {s : State} (h : s.off.toInt < 0) :
    encodeRange text s = raise .negativeRange 1 := by
  rw [encodeRange, dataBytes_off_neg h]; rfl

/-- A negative LEN stops it next. -/
theorem encodeRange_len_neg (text : Nat → List Byte → List Byte) {s : State} (h : 0 ≤ s.off.toInt) (hl : s.len.toInt < 0) :
    encodeRange text s = raise .negativeRange 2 := by
  rw [encodeRange, dataBytes_len_neg h hl]; rfl

/-- A text written from index 0 leaves every later cell as it was. -/
theorem readCell_writeCells_past {m : Memory} {bs : List Byte} {k : Nat} (h : bs.length ≤ k) :
    readCell (writeCells m 0 bs) k = readCell m k := by
  rw [readCell_writeCells, if_neg (by omega)]

/-- A command whose pseudocode is that of an encoder does what R170 and R172 to R174 say of one. -/
theorem encoderMeans_of_exec {i : Instr} {w : Word} {f text : Nat → List Byte → List Byte} (hd : decode w = .ok i)
    (hx : ∀ s, exec i s = complete (encodeRange f s) s) (hf : ∀ o bs, f o bs = text o bs) : EncoderMeans i w text := by
  refine ⟨hd, fun s => ⟨fun h => ?_, fun h hl => ?_⟩, fun s bs hr => ⟨fun hcap => ?_, fun hfit => ?_⟩⟩
  · rw [hx, encodeRange_off_neg f h, complete_raise]; rfl
  · rw [hx, encodeRange_len_neg f h hl, complete_raise]; rfl
  · rw [hx, encodeRange_of_rangeHolds hr, hf, textOut_capacity hcap, complete_raise, BitVec.ofInt_natCast]; rfl
  · exact ⟨_, by rw [hx, encodeRange_of_rangeHolds hr, hf, textOut_fits hfit, complete_ok], cellsHold_writeCells _ _ _,
      fun _ => readCell_writeCells_past⟩

/-- Settles O33: HEXENC is an encoder, and its text is two digits a byte. -/
theorem hexencWritesTwoDigitsPerByte : Obligations.HexencWritesTwoDigitsPerByte :=
  encoderMeans_of_exec (decode_encode .hexenc) (fun _ => rfl) fun _ => hexText_eq

/-- Settles O34: HEXENCSP is an encoder, and its text is the pairs of digits joined by spaces. -/
theorem hexencspJoinsWithSpaces : Obligations.HexencspJoinsWithSpaces :=
  encoderMeans_of_exec (decode_encode .hexencsp) (fun _ => rfl) fun _ => hexTextSpaced_eq

/-- Settles O35: HEXDUMP is an encoder, and its text is the lines of R175. -/
theorem hexdumpWritesTheLines : Obligations.HexdumpWritesTheLines :=
  encoderMeans_of_exec (decode_encode .hexdump) (fun _ => rfl) dumpText_eq

/-! ## hex_encoder: the lengths of the texts (R175, R179) -/

/-- What comes before the gutter in a dump line: the offset and the hex field, a space after each (R175 items 1 to 4). -/
def dumpHead (a : Nat) (bs : List Byte) : List Byte :=
  [0x30#8, 0x78#8] ++ hex8 (BitVec.ofNat 32 a) ++ [0x20#8] ++ (List.range 16).flatMap (dumpEntry bs) ++ [0x20#8]

/-- A dump line is its head, the gutter, and LF. -/
theorem dumpLine_eq_dumpHead (a : Nat) (bs : List Byte) :
    dumpLine a bs = dumpHead a bs ++ bs.map asciiOrDot ++ [0x0A#8] := rfl

/-- The head has 59 characters, however many bytes the line has. -/
theorem dumpHead_length (a : Nat) (bs : List Byte) : (dumpHead a bs).length = 59 := by
  have hhex : (hex8 (BitVec.ofNat 32 a)).length = 8 := rfl
  simp only [dumpHead, List.length_append, hhex, dumpEntries_length, List.length_cons, List.length_nil]

theorem dumpLine_length (a : Nat) (bs : List Byte) : (dumpLine a bs).length = 60 + bs.length := by
  simp only [dumpLine_eq_dumpHead, List.length_append, dumpHead_length, List.length_map, List.length_cons, List.length_nil]
  omega

/-- The gutter starts right after the head. -/
theorem dumpLine_getElem?_gutter (a : Nat) {bs : List Byte} {j : Nat} {b : Byte} (h : bs[j]? = some b) :
    (dumpLine a bs)[59 + j]? = some (asciiOrDot b) := by
  obtain ⟨hj, -⟩ := List.getElem?_eq_some_iff.mp h
  rw [dumpLine_eq_dumpHead, List.append_assoc, List.getElem?_append_right (by rw [dumpHead_length]; omega), dumpHead_length,
    Nat.add_sub_cancel_left, List.getElem?_append_left (by rwa [List.length_map]), List.getElem?_map, h, Option.map_some]

/-- Settles O36: the head has 59 characters, the gutter one for each byte, and LF follows. -/
theorem dumpGutterIsAligned : Obligations.DumpGutterIsAligned :=
  fun a bs _ _ => ⟨dumpLine_length a bs, fun _ _ => dumpLine_getElem?_gutter a⟩

/-- The first `n` lines of a dump hold the first `16 * n` bytes. -/
theorem dumpLines_length (o : Nat) (bs : List Byte) (n : Nat) :
    ((List.range n).flatMap fun l => dumpLine (o + 16 * l) ((bs.drop (16 * l)).take 16)).length =
      60 * n + min (16 * n) bs.length := by
  induction n with
  | zero => simp
  | succ n ih =>
    rw [List.range_succ, List.flatMap_append, List.length_append, ih, List.flatMap_singleton, dumpLine_length,
      List.length_take, List.length_drop]
    omega

theorem dumpText_length (o : Nat) (bs : List Byte) :
    (dumpText o bs).length = 60 * ((bs.length + 15) / 16) + bs.length := by
  rw [dumpText, dumpLines_length]; omega

/-- TLEN after an encoder whose text has `n` characters, or its CAPACITY error. -/
theorem EncoderMeans.text_length {i : Instr} {w : Word} {text : Nat → List Byte → List Byte} (h : EncoderMeans i w text)
    {s : State} {bs : List Byte} {n : Nat} (hc : s.cfg.Legal) (hr : RangeHolds s bs)
    (hn : (text s.off.toInt.toNat bs).length = n) :
    (n ≤ s.cfg.txtCap → ∃ t, exec i s = .next t ∧ t.tlen.toNat = n) ∧
      (s.cfg.txtCap < n → exec i s = .next (failed 0x07#8 (BitVec.ofNat 32 n) s)) := by
  subst hn
  obtain ⟨-, -, hmeans⟩ := h
  obtain ⟨hcapacity, hwrites⟩ := hmeans s bs hr
  refine ⟨fun hfit => ?_, hcapacity⟩
  obtain ⟨m, hx, -⟩ := hwrites hfit
  refine ⟨_, hx, ?_⟩
  have hmax := hc.txtCap_le
  rw [completed_tlen, BitVec.toNat_ofNat, Nat.mod_eq_of_lt (by omega)]

/-- Settles O37: the lengths of the three texts. -/
theorem encoderOutputLengths : Obligations.EncoderOutputLengths := fun _ bs hc hr =>
  ⟨hexencWritesTwoDigitsPerByte.text_length hc hr (hexText_eq bs ▸ hexText_length bs),
    hexencspJoinsWithSpaces.text_length hc hr (hexTextSpaced_eq bs ▸ hexTextSpaced_length bs),
    hexdumpWritesTheLines.text_length hc hr (dumpText_eq _ bs ▸ dumpText_length _ bs)⟩

/-! ## hex_decoder: HEXDEC -/

/-- HEXDEC on digits with a character that is none after them. -/
theorem hexDecode_invalid {s : State} {m : Int} {cs : List Byte} {c : Byte} (h : 0 ≤ s.off.toInt)
    (hm : m = min (s.off.toInt + s.len.toInt) s.tlen.toNat - s.off.toInt) (h0 : 0 < m) (h2 : m % 2 = 0)
    (hc : m / 2 ≤ s.cfg.bufCap) (hl : (cs.length : Int) < m) (hcs : CellsHold s.tbuf s.off.toInt.toNat (cs ++ [c]))
    (hv : ∀ d ∈ cs, ∃ v, IsHexDigit d.toNat v) (hn : ¬ ∃ v, IsHexDigit c.toNat v) :
    hexDecode s = raise .invalidHexChar (s.off.toInt + cs.length) := by
  have hat : readCell s.tbuf (s.off.toInt.toNat + cs.length) = some c := hcs _ c (by simp)
  have hdigits : CellsHold s.tbuf s.off.toInt.toNat cs := fun j b hb =>
    hcs j b (by rwa [List.getElem?_append_left (List.getElem?_eq_some_iff.mp hb).1])
  have hend : ((s.off.toInt.toNat + cs.length : Nat) : Int) = s.off.toInt + cs.length := by omega
  rw [hexDecode_pairs h hm h0 h2 hc, decodePairs_stops (by omega) hdigits hv (hexDigitAt_invalid hat hn), hend]
  rfl

/-- HEXDEC on digits alone. -/
theorem hexDecode_digits {s : State} {m : Int} {cs : List Byte} {vs : List Nat} (h : 0 ≤ s.off.toInt)
    (hm : m = min (s.off.toInt + s.len.toInt) s.tlen.toNat - s.off.toInt) (h0 : 0 < m) (h2 : m % 2 = 0)
    (hc : m / 2 ≤ s.cfg.bufCap) (hl : (cs.length : Int) = m) (hcs : CellsHold s.tbuf s.off.toInt.toNat cs)
    (hv : List.Forall₂ (fun c v => IsHexDigit (BitVec.toNat c) v) cs vs) :
    ∃ d, hexDecode s = .ok { s with dbuf := d, dlen := BitVec.ofInt 32 (m / 2) } ∧
      ∀ k, readCell d k =
        if (k : Int) < m / 2 then some (BitVec.ofNat 8 (16 * vs.getD (2 * k) 0 + vs.getD (2 * k + 1) 0))
        else readCell s.dbuf k := by
  obtain ⟨bs, hbs, hlen, hget⟩ := decodePairs_digits (n := m.toNat / 2) (by omega) hcs hv
  have hdlen : BitVec.ofInt 32 (m / 2) = BitVec.ofNat 32 (m.toNat / 2) := by
    rw [← BitVec.ofInt_natCast]; congr 1; omega
  refine ⟨_, by rw [hexDecode_pairs h hm h0 h2 hc, hbs, hdlen], fun k => ?_⟩
  by_cases hk : (k : Int) < m / 2
  · rw [if_pos hk, readCell_writeCells, if_pos (by omega), Nat.sub_zero, hget k (by omega)]
  · rw [if_neg hk, readCell_writeCells_past (by omega)]

/-- Settles O38: HEXDEC's errors in order, and the pairs of digits. -/
theorem hexdecDecodesPairs : Obligations.HexdecDecodesPairs := by
  refine ⟨decode_encode .hexdec, fun s m hm => ⟨fun h => ?_, fun h hl => ?_, fun h h0 h2 hc => ?_, fun h h0 h2 hc =>
    ⟨fun cs c hl hcs hv hn => ?_, fun cs vs hl hcs hv => ?_⟩⟩⟩
  · rw [exec, execHexdec, hexDecode_off_neg h, complete_raise]; rfl
  · rw [exec, execHexdec, hexDecode_length h hm hl, complete_raise]; rfl
  · rw [exec, execHexdec, hexDecode_capacity h hm h0 h2 hc, complete_raise]; rfl
  · rw [exec, execHexdec, hexDecode_invalid h hm h0 h2 hc hl hcs hv hn, complete_raise]; rfl
  · obtain ⟨d, hd, hcells⟩ := hexDecode_digits h hm h0 h2 hc hl hcs hv
    exact ⟨d, by rw [exec, execHexdec, hd, complete_ok], hcells⟩

/-! ## The hex round trip (R178) -/

/-- A word below 2^31 is its own signed value. -/
theorem toInt_ofNat_of_lt {n : Nat} (h : n < 2 ^ 31) : (BitVec.ofNat 32 n).toInt = n := by
  rw [BitVec.toInt_eq_toNat_of_lt] <;> rw [BitVec.toNat_ofNat, Nat.mod_eq_of_lt (by omega)]
  omega

/-- The range from index 0 to DLEN holds what the buffer holds. -/
theorem rangeHolds_whole {s : State} {bs : List Byte} (hoff : s.off = 0) (hlen : s.len = s.dlen)
    (hbs : bs.length = s.dlen.toNat) (hd : s.dlen.toNat < 2 ^ 31) (hc : CellsHold s.dbuf 0 bs) : RangeHolds s bs := by
  have ho : s.off.toInt = 0 := by rw [hoff]; rfl
  have hl : s.len.toInt = s.dlen.toNat := by rw [hlen, BitVec.toInt_eq_toNat_of_lt (by omega)]
  exact ⟨ho.ge, by omega, by omega, by rwa [ho]⟩

/-- HEXDEC of the whole text of a non-empty `bs` stores `bs` from index 0, whatever DBUF and DLEN hold; `d` is the length. -/
theorem exec_hexdec_hexText {s : State} {bs : List Byte} {d : Word} (hne : bs ≠ []) (hd : bs.length = d.toNat)
    (hcap : bs.length ≤ s.cfg.bufCap) (hlt : 2 * bs.length < 2 ^ 31) (hoff : s.off = 0)
    (hlen : s.len = BitVec.ofNat 32 (2 * bs.length)) (htlen : s.tlen = BitVec.ofNat 32 (2 * bs.length))
    (hc : CellsHold s.tbuf 0 (hexText bs)) :
    exec .hexdec s = .next (completed { s with dbuf := writeCells s.dbuf 0 bs, dlen := d }) := by
  have hpos := List.length_pos_iff.mpr hne
  have ho : s.off.toInt = 0 := by rw [hoff]; rfl
  have hl : s.len.toInt = (2 * bs.length : Nat) := by rw [hlen, toInt_ofNat_of_lt hlt]
  have ht : s.tlen.toNat = 2 * bs.length := by rw [htlen, BitVec.toNat_ofNat, Nat.mod_eq_of_lt (by omega)]
  have hhalf : ((2 * bs.length : Nat) : Int).toNat / 2 = bs.length := by omega
  have hdlen : BitVec.ofNat 32 bs.length = d := by rw [hd, BitVec.ofNat_toNat, BitVec.setWidth_eq]
  rw [exec, execHexdec, hexDecode_pairs (m := (2 * bs.length : Nat)) ho.ge (by omega) (by omega) (by omega) (by omega),
    hhalf, hdlen, ho, Int.toNat_zero, decodePairs_hexText hc, complete_ok]

/-- HEXDEC of no characters. -/
theorem exec_hexdec_empty {s : State} (hoff : s.off = 0) (hlen : s.len = 0) :
    exec .hexdec s = .next (failed 0x03#8 0 s) := by
  have ho : s.off.toInt = 0 := by rw [hoff]; rfl
  have hl : s.len.toInt = 0 := by rw [hlen]; rfl
  rw [exec, execHexdec, hexDecode_length (m := 0) ho.ge (by omega) (.inl le_rfl), complete_raise]; rfl

/-- Settles O39: HEXENC leaves the text of the whole buffer in TBUF, and HEXDEC reads it back. -/
theorem hexRoundTrip : Obligations.HexRoundTrip := by
  intro s bs hlegal hdlen hoff hlen hbs hcells hfit
  have hbuf := hlegal.bufCap_le
  have htxt := hlegal.txtCap_le
  have hrange := rangeHolds_whole hoff hlen hbs (by omega) hcells
  obtain ⟨-, -, hmeans⟩ := hexencWritesTwoDigitsPerByte
  obtain ⟨-, hwrites⟩ := hmeans s bs hrange
  simp only [← hexText_eq, hexText_length] at hwrites
  obtain ⟨tb, hx, htext, -⟩ := hwrites hfit
  exact ⟨_, hx, rfl, fun m d =>
    ⟨fun hne => ⟨writeCells m 0 bs, exec_hexdec_hexText hne hbs (hbs ▸ hdlen) (by omega) hoff rfl rfl htext,
      cellsHold_writeCells m 0 bs⟩, fun _ => exec_hexdec_empty hoff rfl⟩⟩

end Sys2Proof.Machine

namespace Sys2Proof.Machine

/-! ## The range commands of the checksums -/

/-- The pseudocode of `i` reads its clamped DBUF range and, when that raises nothing, makes the writes `f s bs` for the bytes `bs`
it read (R69). -/
def RunsOnRange (i : Instr) (f : State → List Byte → State) : Prop :=
  ∀ s, exec i s = complete
    (match dataBytes s with
      | .error e => .error e
      | .ok (_, bs) => .ok (f s bs)) s

/-- On a range that holds `bs` it makes its writes. -/
theorem RunsOnRange.exec_eq {i : Instr} {f : State → List Byte → State} (h : RunsOnRange i f) {s : State} {bs : List Byte}
    (hr : RangeHolds s bs) : exec i s = .next (completed (f s bs)) := by
  rw [h, dataBytes_of_rangeHolds hr, complete_ok]

/-- A command that runs on a range does what R213, R215 and their like for the other checksums say of one. -/
theorem RunsOnRange.means {i : Instr} {w : Word} {f : State → List Byte → State} (h : RunsOnRange i f)
    (hd : decode w = .ok i) : RangeCommandMeans i w f :=
  ⟨hd, fun s => ⟨fun ho => (h s).trans (dataMatch_off_neg ho), fun ho hl => (h s).trans (dataMatch_len_neg ho hl)⟩,
    fun _ _ hr => h.exec_eq hr⟩

/-- How a command that runs on a range can end in a next state: with NEGATIVE_RANGE, or with its writes made. -/
theorem RunsOnRange.next {i : Instr} {f : State → List Byte → State} (h : RunsOnRange i f) {s t : State}
    (hx : exec i s = .next t) :
    ((s.off.toInt < 0 ∨ s.len.toInt < 0) ∧ ∃ info, t = failed 0x05#8 info s) ∨
      ∃ bs, RangeHolds s bs ∧ t = completed (f s bs) := by
  rcases dataBytes_cases s with ⟨ho, -⟩ | ⟨ho, hl, -⟩ | ⟨-, -, hd⟩ | ⟨bs, hr, -⟩
  · exact .inl ⟨.inl ho, 1, Host.Outcome.next.inj (hx.symm.trans ((h s).trans (dataMatch_off_neg ho)))⟩
  · exact .inl ⟨.inr hl, 2, Host.Outcome.next.inj (hx.symm.trans ((h s).trans (dataMatch_len_neg ho hl)))⟩
  · rw [h, hd] at hx
    cases hx
  · exact .inr ⟨bs, hr, Host.Outcome.next.inj (hx.symm.trans (h.exec_eq hr))⟩

/-- With OFF and LEN not negative it ends with its writes made. -/
theorem RunsOnRange.next_of_nonneg {i : Instr} {f : State → List Byte → State} (h : RunsOnRange i f) {s t : State}
    (hx : exec i s = .next t) (ho : 0 ≤ s.off.toInt) (hl : 0 ≤ s.len.toInt) :
    ∃ bs, RangeHolds s bs ∧ t = completed (f s bs) :=
  (h.next hx).resolve_left fun ⟨hneg, _⟩ => hneg.elim ho.not_gt hl.not_gt

theorem bccUpd_runsOnRange : RunsOnRange .bccUpd fun s bs => { s with bccAcc := bccFold s.bccAcc bs } := fun _ => rfl

theorem bccFinb_runsOnRange :
    RunsOnRange .bccFinb fun s bs => { s with res := (bccFin (bccFold s.bccAcc bs)).setWidth 64 } := fun _ => rfl

theorem addUpd_runsOnRange : RunsOnRange .addUpd fun s bs => { s with addAcc := addFold s.addAcc bs } := fun _ => rfl

theorem addFinb_runsOnRange :
    RunsOnRange .addFinb fun s bs => { s with res := (addFin (addFold s.addAcc bs)).setWidth 64 } := fun _ => rfl

theorem crcUpd_runsOnRange :
    RunsOnRange .crcUpd fun s bs => { s with crcAcc := crcFold (algField s.crcMode) s.crcAcc bs } := fun _ => rfl

theorem crcFinb_runsOnRange :
    RunsOnRange .crcFinb fun s bs => { s with res := (crcFin (crcFold (algField s.crcMode) s.crcAcc bs)).setWidth 64 } :=
  fun _ => rfl

/-! ## bcc_checksum -/

/-- VAL[7:0] in the statements' spelling. -/
theorem valByte_eq_setWidth (s : State) : valByte s = s.val.setWidth 8 :=
  BitVec.eq_of_toNat_eq (by rw [valByte_toNat, BitVec.toNat_setWidth])

/-- Settles O40: VAL[31:0] and VAL[7:0] are in the statement's spelling. -/
theorem bccInitAndByteUpdate : Obligations.BccInitAndByteUpdate := by
  refine ⟨⟨decode_encode .bccInit, fun s => ?_⟩, ⟨decode_encode .bccUpdb, fun s => ?_⟩⟩
  · simp only [← extractLsb'_low_eq_setWidth]; rfl
  · simp only [← valByte_eq_setWidth]; rfl

/-- Settles O41: BCC_UPD runs on a range, and its fold is the statement's. -/
theorem bccRangeUpdateXorsTheBytes : Obligations.BccRangeUpdateXorsTheBytes :=
  bccUpd_runsOnRange.means (decode_encode .bccUpd)

/-- Settles O42: BCC_FIN reads the accumulator, and BCC_FINB runs on a range with the same fold. -/
theorem bccFinalizeReadsTheAccumulator : Obligations.BccFinalizeReadsTheAccumulator :=
  ⟨⟨decode_encode .bccFin, fun _ => rfl⟩, bccFinb_runsOnRange.means (decode_encode .bccFinb)⟩

/-- A byte widened to 32 bits has none of the bits 31:8. -/
theorem b2u_ushiftRight (b : Byte) : b2u b >>> 8 = 0#32 := by
  apply BitVec.eq_of_toNat_eq
  have hb := b.isLt
  simp only [b2u, BitVec.toNat_ushiftRight, BitVec.toNat_setWidth, Nat.shiftRight_eq_div_pow, BitVec.toNat_ofNat]
  omega

/-- A BCC step keeps bits 31:8 (R210). -/
theorem bccStep_ushiftRight (acc : Word) (b : Byte) : bccStep acc b >>> 8 = acc >>> 8 := by
  rw [bccStep, BitVec.ushiftRight_xor_distrib, b2u_ushiftRight, BitVec.xor_zero]

theorem bccFold_ushiftRight (acc : Word) (bs : List Byte) : bccFold acc bs >>> 8 = acc >>> 8 := by
  induction bs generalizing acc with
  | nil => rfl
  | cons b bs ih => exact (ih (bccStep acc b)).trans (bccStep_ushiftRight acc b)

/-- Settles O43: an error report leaves the accumulator, and a step or a fold keeps its upper bits. -/
theorem bccKeepsTheUpperBits : Obligations.BccKeepsTheUpperBits := by
  rintro s t (hupdb | hupd)
  · cases hupdb
    exact bccStep_ushiftRight s.bccAcc (valByte s)
  · rcases bccUpd_runsOnRange.next hupd with ⟨-, info, rfl⟩ | ⟨bs, -, rfl⟩
    · rfl
    · exact bccFold_ushiftRight s.bccAcc bs

/-! ## The laws of the checksums (R216, R237, R260) -/

/-- A signed sum that stays below 2^31 is the sum of the words. -/
theorem toInt_add_of_lt {x y : Word} (hx : 0 ≤ x.toInt) (hy : 0 ≤ y.toInt) (h : x.toInt + y.toInt < 2 ^ 31) :
    (x + y).toInt = x.toInt + y.toInt := by
  rw [BitVec.toInt_add, Int.bmod_eq_of_le] <;> omega

/-- Two runs of bytes in a buffer, the second right after the first, are one run. -/
theorem CellsHold.append {m : Memory} {i : Nat} {as bs : List Byte} (ha : CellsHold m i as)
    (hb : CellsHold m (i + as.length) bs) : CellsHold m i (as ++ bs) := by
  intro j c hc
  by_cases hj : j < as.length
  · exact ha j c (by rwa [List.getElem?_append_left hj] at hc)
  · rw [List.getElem?_append_right (by omega)] at hc
    have hcell := hb _ c hc
    rwa [show i + as.length + (j - as.length) = i + j by omega] at hcell

/-- Two adjoining ranges within DLEN, of `a` bytes and of `b` bytes, make one range of `a + b` bytes; `t` is the state that
the second one is read from. -/
theorem RangeHolds.append {s t : State} {a b : Word} {as bs : List Byte} (has : RangeHolds { s with len := a } as)
    (hbs : RangeHolds { t with off := s.off + a, len := b } bs) (hdlen : t.dlen = s.dlen) (hdbuf : t.dbuf = s.dbuf)
    (hend : s.off.toInt + a.toInt + b.toInt ≤ s.dlen.toNat) (hlt : s.off.toInt + a.toInt + b.toInt < 2 ^ 31) :
    RangeHolds { s with len := a + b } (as ++ bs) := by
  obtain ⟨ho, ha, hlena, hcellsa⟩ := has
  obtain ⟨-, hb, hlenb, hcellsb⟩ := hbs
  dsimp only at ho ha hb hlena hlenb hcellsa hcellsb
  rw [toInt_add_of_lt ho ha (by omega)] at hlenb hcellsb
  rw [hdlen] at hlenb
  rw [hdbuf, show (s.off.toInt + a.toInt).toNat = s.off.toInt.toNat + as.length by omega] at hcellsb
  have hab := toInt_add_of_lt ha hb (by omega)
  refine ⟨ho, ?_, ?_, hcellsa.append hcellsb⟩ <;> dsimp only <;> rw [hab]
  · omega
  · rw [List.length_append]; omega

/-- An update whose writes leave DBUF and DLEN streams as soon as its writes for one list of bytes and then
for another, with OFF and LEN set anew in between (`u`), give the accumulators that its writes for the joined list give (`v`). -/
theorem RunsOnRange.streamingIsBatch {i : Instr} {f : State → List Byte → State} (h : RunsOnRange i f)
    (hdlen : ∀ s bs, (f s bs).dlen = s.dlen) (hdbuf : ∀ s bs, (f s bs).dbuf = s.dbuf)
    (happend : ∀ (s : State) (l l' l'' o : Word) (as bs : List Byte),
      let u := f { completed (f { s with len := l } as) with off := o, len := l' } bs
      let v := f { s with len := l'' } (as ++ bs)
      v.bccAcc = u.bccAcc ∧ v.addAcc = u.addAcc ∧ v.crcAcc = u.crcAcc) :
    StreamingIsBatch i := by
  intro s a b ho ha hb hend hlt t u ht hu
  obtain ⟨as, has, rfl⟩ := h.next_of_nonneg ht ho ha
  have hmid : 0 ≤ (s.off + a).toInt := by rw [toInt_add_of_lt ho ha (by omega)]; omega
  obtain ⟨bs, hbs, rfl⟩ := h.next_of_nonneg hu hmid hb
  have hboth := has.append hbs (hdlen _ _) (hdbuf _ _) hend hlt
  exact ⟨_, h.exec_eq hboth, happend s a b (a + b) (s.off + a) as bs⟩

/-- Settles O55: each fold over two joined lists is the fold over the second from that over the first. -/
theorem streamingEqualsBatch : Obligations.StreamingEqualsBatch :=
  ⟨bccUpd_runsOnRange.streamingIsBatch (fun _ _ => rfl) (fun _ _ => rfl)
      fun s _ _ _ _ as bs => ⟨bccFold_append s.bccAcc as bs, rfl, rfl⟩,
    addUpd_runsOnRange.streamingIsBatch (fun _ _ => rfl) (fun _ _ => rfl)
      fun s _ _ _ _ as bs => ⟨rfl, addFold_append s.addAcc as bs, rfl⟩,
    crcUpd_runsOnRange.streamingIsBatch (fun _ _ => rfl) (fun _ _ => rfl)
      fun s _ _ _ _ as bs => ⟨rfl, rfl, crcFold_append (algField s.crcMode) s.crcAcc as bs⟩⟩

/-- Settles O56: each FIN writes RES alone, and reads it off an accumulator that it leaves. -/
theorem finalizeIsIdempotent : Obligations.FinalizeIsIdempotent := by
  intro i hi s
  simp only [List.mem_cons, List.not_mem_nil, or_false] at hi
  rcases hi with rfl | rfl | rfl <;> exact ⟨_, _, rfl, rfl, rfl, rfl, rfl, rfl, rfl⟩

/-- Two BCC steps commute. -/
theorem bccStep_right_comm (acc : Word) (b c : Byte) : bccStep (bccStep acc b) c = bccStep (bccStep acc c) b := by
  simp only [bccStep, BitVec.xor_assoc, BitVec.xor_comm (b2u b)]

theorem bccFold_perm (acc : Word) {as bs : List Byte} (h : as.Perm bs) : bccFold acc as = bccFold acc bs :=
  h.foldl_eq' (fun b _ c _ acc => bccStep_right_comm acc b c) acc

theorem addFold_perm (acc : Word) {as bs : List Byte} (h : as.Perm bs) : addFold acc as = addFold acc bs := by
  rw [addFold_eq, addFold_eq, (h.map BitVec.toNat).sum_eq]

/-- Settles O57: both runs complete, and each fold gives the same for permuted bytes. -/
theorem byteOrderDoesNotMatter : Obligations.ByteOrderDoesNotMatter :=
  ⟨fun s _ _ _ has hbs hperm =>
      ⟨_, _, bccUpd_runsOnRange.exec_eq has, bccUpd_runsOnRange.exec_eq hbs, bccFold_perm s.bccAcc hperm, rfl⟩,
    fun s _ _ _ has hbs hperm =>
      ⟨_, _, addUpd_runsOnRange.exec_eq has, addUpd_runsOnRange.exec_eq hbs, rfl, addFold_perm s.addAcc hperm⟩⟩

/-- A FINB whose RES is the one that the FIN `r` reads off the state after the UPD `f` is the fold of a copy. -/
theorem finalizeOfCopy_of_runsOnRange {upd fin finb : Instr} {f : State → List Byte → State} {r : State → DWord}
    (hupd : RunsOnRange upd f) (hfin : ∀ s, exec fin s = .next (completed { s with res := r s }))
    (hfinb : RunsOnRange finb fun s bs => { s with res := r (completed (f s bs)) }) : FinalizeOfCopy upd fin finb :=
  fun _ _ hr => ⟨_, _, _, hupd.exec_eq hr, hfin _, hfinb.exec_eq hr, rfl⟩

/-- Settles O58: each unit's FINB finalizes the fold that its UPD stores and its FIN reads. -/
theorem finbIsTheFoldOfACopy : Obligations.FinbIsTheFoldOfACopy :=
  ⟨finalizeOfCopy_of_runsOnRange (r := fun s => (bccFin s.bccAcc).setWidth 64) bccUpd_runsOnRange (fun _ => rfl)
      bccFinb_runsOnRange,
    finalizeOfCopy_of_runsOnRange (r := fun s => (addFin s.addAcc).setWidth 64) addUpd_runsOnRange (fun _ => rfl)
      addFinb_runsOnRange,
    finalizeOfCopy_of_runsOnRange (r := fun s => (crcFin s.crcAcc).setWidth 64) crcUpd_runsOnRange (fun _ => rfl)
      crcFinb_runsOnRange⟩

end Sys2Proof.Machine

namespace Sys2Proof.Machine

/-! ## additive_checksum -/

/-- The additive step is the sum modulo 2^32 (R231). -/
theorem addStep_eq (acc : Word) (b : Byte) : addStep acc b = BitVec.ofNat 32 (acc.toNat + b.toNat) :=
  addFold_eq acc [b]

/-- Settles O45: ADD_UPD runs on a range, and its fold is the statement's sum. -/
theorem additiveRangeUpdateAddsTheBytes : Obligations.AdditiveRangeUpdateAddsTheBytes := by
  have hmeans := addUpd_runsOnRange.means (decode_encode .addUpd)
  simp only [addFold_eq] at hmeans
  exact hmeans

/-- Settles O46: ADD_FIN finalizes the accumulator, and ADD_FINB runs on a range and finalizes the same fold as ADD_UPD's. -/
theorem additiveFinalizeInvertsLargeSums : Obligations.AdditiveFinalizeInvertsLargeSums := by
  refine ⟨⟨decode_encode .addFin, fun s => ?_⟩, ?_⟩
  · simp only [← addFin_eq]; rfl
  · have hmeans := addFinb_runsOnRange.means (decode_encode .addFinb)
    simp only [addFin_eq, addFold_eq] at hmeans
    exact hmeans

/-- Settles O44: VAL[31:0] is in the statement's spelling, and the step on VAL[7:0] is the statement's sum. -/
theorem additiveInitAndByteUpdate : Obligations.AdditiveInitAndByteUpdate := by
  refine ⟨⟨decode_encode .addInit, fun s => ?_⟩, ⟨decode_encode .addUpdb, fun s => ?_⟩⟩
  · simp only [← extractLsb'_low_eq_setWidth]; rfl
  · simp only [← valByte_toNat, ← addStep_eq]; rfl

end Sys2Proof.Machine

namespace Sys2Proof.Machine

/-! ## crc16_lfsr and crc16_rom: the two engines -/

/-- Eight turns of R250's loop on a byte give its entry in the listed ROM (R251), checked byte by byte. -/
theorem lfsrShifts_b2u (b : Byte) : lfsrShifts 8 (b2u b) = (romEntry b).setWidth 32 := by
  revert b
  decide

/-- Settles O51: an entry cut back from 32 bits to its 16 is itself. -/
theorem crcRomHoldsTheShiftedBytes : Obligations.CrcRomHoldsTheShiftedBytes := by
  intro b
  calc romEntry b = ((romEntry b).setWidth 32).setWidth 16 := by
        rw [BitVec.setWidth_setWidth_of_le _ (by decide), BitVec.setWidth_eq]
    _ = (lfsrStep 0 b).setWidth 16 := by rw [← lfsrShifts_b2u, lfsrStep, BitVec.ofNat_eq_ofNat, BitVec.zero_xor]
    _ = (crcByte 0 b).setWidth 16 := by rw [lfsrStep_eq_crcByte]

/-- Eight turns of the loop shift the low byte out and put in its ROM entry, since a turn is linear. -/
theorem lfsrShifts_eight (x : Word) : lfsrShifts 8 x = (x >>> 8) ^^^ (romEntry (x.extractLsb' 0 8)).setWidth 32 := by
  have hclear : ∀ j < 8, (x ^^^ b2u (x.extractLsb' 0 8)).getLsbD j = false := fun j hj => by
    simp [b2u, hj, show j < 32 by omega]
  calc lfsrShifts 8 x = lfsrShifts 8 ((x ^^^ b2u (x.extractLsb' 0 8)) ^^^ b2u (x.extractLsb' 0 8)) := by
        rw [BitVec.xor_assoc, BitVec.xor_self, BitVec.xor_zero]
    _ = (x >>> 8) ^^^ (romEntry (x.extractLsb' 0 8)).setWidth 32 := by
        rw [lfsrShifts_xor, lfsrShifts_clear hclear, BitVec.ushiftRight_xor_distrib, b2u_ushiftRight, BitVec.xor_zero,
          lfsrShifts_b2u]

/-- Settles O52: both engines shift the register by 8, which drops the byte, and put in the same ROM entry. -/
theorem crcEnginesAgree : Obligations.CrcEnginesAgree := by
  intro crc b
  rw [lfsrStep, lfsrShifts_eight, BitVec.ushiftRight_xor_distrib, b2u_ushiftRight, BitVec.xor_zero, romStep]

/-- The table engine's step is the statements' byte step. -/
theorem romStep_eq_crcByte (crc : Word) (b : Byte) : romStep crc b = crcByte crc b :=
  (crcEnginesAgree crc b).trans (lfsrStep_eq_crcByte crc b)

/-- So is the step of the engine that ALG selects (R254), whichever it is. -/
theorem crcStep_eq_crcByte (m : BitVec 2) : crcStep m = crcByte := by
  funext crc b
  rw [crcStep, romStep_eq_crcByte, lfsrStep_eq_crcByte, ite_self]

theorem crcFold_eq_foldl (m : BitVec 2) (crc : Word) (bs : List Byte) : crcFold m crc bs = bs.foldl crcByte crc := by
  rw [crcFold, crcStep_eq_crcByte]

/-! ## crc16_lfsr and crc16_rom: the commands -/

theorem exec_crcUpdb (s : State) :
    exec .crcUpdb s = .next (completed { s with crcAcc := crcByte s.crcAcc (valByte s) }) := by
  rw [exec, execCrcUpdb, crcStep_eq_crcByte, complete_ok]

/-- CRC_UPD in either mode. -/
theorem crcUpd_runsOnRange_foldl :
    RunsOnRange .crcUpd fun s bs => { s with crcAcc := bs.foldl crcByte s.crcAcc } := by
  have h := crcUpd_runsOnRange
  simp only [crcFold_eq_foldl] at h
  exact h

/-- CRC_FINB in either mode. -/
theorem crcFinb_runsOnRange_foldl :
    RunsOnRange .crcFinb fun s bs => { s with res := (bs.foldl crcByte s.crcAcc).setWidth 64 } := by
  have h := crcFinb_runsOnRange
  simp only [crcFold_eq_foldl] at h
  exact h

/-- Settles O48: VAL[7:0] is in the statement's spelling. -/
theorem crcByteUpdateRunsOneStep : Obligations.CrcByteUpdateRunsOneStep :=
  ⟨decode_encode .crcUpdb, fun s _ => by rw [exec_crcUpdb, valByte_eq_setWidth]⟩

/-- Settles O49: CRC_UPD runs on a range. -/
theorem crcRangeUpdateFoldsTheBytes : Obligations.CrcRangeUpdateFoldsTheBytes := by
  obtain ⟨hd, herr, hx⟩ := crcUpd_runsOnRange_foldl.means (decode_encode .crcUpd)
  exact ⟨hd, herr, fun s bs _ => hx s bs⟩

/-- Settles O50: CRC_FIN reads the accumulator, and CRC_FINB runs on a range with the same fold as CRC_UPD. -/
theorem crcFinalizeReadsTheAccumulator : Obligations.CrcFinalizeReadsTheAccumulator := by
  obtain ⟨hd, herr, hx⟩ := crcFinb_runsOnRange_foldl.means (decode_encode .crcFinb)
  exact ⟨⟨decode_encode .crcFin, fun _ => rfl⟩, hd, herr, fun s bs _ => hx s bs⟩

/-- Settles O47: CRC_INIT branches on MODE alone, and VAL[31:0] is in the statement's spelling. -/
theorem crcInitSelectsTheEngine : Obligations.CrcInitSelectsTheEngine := by
  refine ⟨decode_encode (.crcInit 0b01#2), decode_encode (.crcInit 0b10#2), decode_encode (.crcInit 0b00#2),
    decode_encode (.crcInit 0b11#2), fun s => ?_⟩
  rw [← extractLsb'_low_eq_setWidth]
  exact ⟨rfl, rfl, complete_raise .invalidAlgorithm 0 s, complete_raise .invalidAlgorithm 3 s⟩

/-! ## CRC_MODE changes no result (R260.1) -/

/-- The state with CRC_MODE replaced. -/
def withMode (c : Word) (s : State) : State := { s with crcMode := c }

/-- An outcome with CRC_MODE of its next state replaced. -/
def outcomeWithMode (c : Word) (o : Host.Outcome State Fault Refusal) : Host.Outcome State Fault Refusal :=
  match o with
  | .next t => .next (withMode c t)
  | .fault f => .fault f
  | .refused r => .refused r

/-- The pseudocode `p` with CRC_MODE replaced by `c` gives the same but for CRC_MODE. -/
def IgnoresMode (c : Word) (p : State → Except Stop State) : Prop := ∀ s, p (withMode c s) = (p s).map (withMode c)

@[simp] theorem withMode_dbuf (c : Word) (s : State) : (withMode c s).dbuf = s.dbuf := rfl
@[simp] theorem withMode_tbuf (c : Word) (s : State) : (withMode c s).tbuf = s.tbuf := rfl
@[simp] theorem valHalf_withMode (c : Word) (s : State) : valHalf (withMode c s) = valHalf s := rfl
@[simp] theorem offsetOperand_withMode (c : Word) (s : State) : offsetOperand (withMode c s) = offsetOperand s := rfl
@[simp] theorem usableLength_withMode (o : Nat) (c : Word) (s : State) :
    usableLength o (withMode c s) = usableLength o s := rfl
@[simp] theorem dataBytes_withMode (c : Word) (s : State) : dataBytes (withMode c s) = dataBytes s := rfl

/-- A command whose pseudocode ignores CRC_MODE completes alike. -/
theorem IgnoresMode.exec {c : Word} {p : State → Except Stop State} (h : IgnoresMode c p) {i : Instr}
    (hx : ∀ s, exec i s = complete (p s) s) (s : State) : exec i (withMode c s) = outcomeWithMode c (exec i s) := by
  rw [hx, hx, h s]
  cases p s with
  | ok t => rfl
  | error e => cases e <;> rfl

/-- So does a command that runs on a range, as soon as its writes do. -/
theorem RunsOnRange.exec_withMode {i : Instr} {f : State → List Byte → State} (h : RunsOnRange i f) {c : Word}
    (hf : ∀ s bs, f (withMode c s) bs = withMode c (f s bs)) (s : State) :
    exec i (withMode c s) = outcomeWithMode c (exec i s) := by
  rw [h, h, dataBytes_withMode]
  cases dataBytes s with
  | error e => cases e <;> rfl
  | ok p => exact congrArg (fun t => Host.Outcome.next (completed t)) (hf s p.2)

/-- Branches on one condition give the same but for CRC_MODE if both arms do. The condition read off the state
before and after the replacement is one by definition, but is decided by two terms, `d` and `d'`. -/
theorem ite_eq_map_withMode {c : Word} {P : Prop} {d d' : Decidable P} {p p' q q' : Except Stop State}
    (hp : p' = p.map (withMode c)) (hq : q' = q.map (withMode c)) :
    @ite _ P d' p' q' = (@ite _ P d p q).map (withMode c) := by
  by_cases h : P
  · rw [if_pos h, if_pos h, hp]
  · rw [if_neg h, if_neg h, hq]

theorem growWrite_ignoresMode (c : Word) (o n : Nat) (v : DWord) : IgnoresMode c (growWrite o n v) := fun _ =>
  ite_eq_map_withMode rfl (ite_eq_map_withMode rfl rfl)

theorem textOut_ignoresMode (c : Word) (text : List Byte) : IgnoresMode c (textOut text) := fun _ =>
  ite_eq_map_withMode rfl rfl

theorem append_ignoresMode (c : Word) (n : Nat) : IgnoresMode c (append n) := fun s =>
  growWrite_ignoresMode c s.dlen.toNat n s.val s

theorem pack_ignoresMode (c : Word) (n : Nat) : IgnoresMode c (pack n) := by
  intro s
  rw [pack, pack, offsetOperand_withMode]
  cases offsetOperand s with
  | error e => rfl
  | ok o => exact growWrite_ignoresMode c o n s.val s

theorem unpack_ignoresMode (c : Word) (n : Nat) : IgnoresMode c (unpack n) := by
  intro s
  rw [unpack, unpack, offsetOperand_withMode]
  cases offsetOperand s with
  | error e => rfl
  | ok o =>
    refine ite_eq_map_withMode rfl ?_
    rw [withMode_dbuf]
    cases readCells s.dbuf o n <;> rfl

theorem encodeRange_ignoresMode (c : Word) (text : Nat → List Byte → List Byte) : IgnoresMode c (encodeRange text) := by
  intro s
  rw [encodeRange, encodeRange, dataBytes_withMode]
  cases dataBytes s with
  | error e => rfl
  | ok p => exact textOut_ignoresMode c (text p.1 p.2) s

theorem hexDecode_ignoresMode (c : Word) : IgnoresMode c hexDecode := by
  intro s
  rw [hexDecode, hexDecode, offsetOperand_withMode]
  cases offsetOperand s with
  | error e => rfl
  | ok o =>
    refine ite_eq_map_withMode rfl (ite_eq_map_withMode rfl ?_)
    rw [usableLength_withMode, withMode_tbuf]
    cases decodePairs s.tbuf o ((usableLength o s).toNat / 2) <;> rfl

/-- HEXCHAR reads VAL alone. -/
theorem exec_hexchar_withMode (c : Word) (s : State) :
    exec .hexchar (withMode c s) = outcomeWithMode c (exec .hexchar s) := by
  rw [exec, exec, execHexchar, execHexchar, valHalf_withMode]
  cases hexVal (valHalf s) <;> rfl

/-- No command but CRC_INIT gives another outcome in another mode, CRC_MODE itself apart. -/
theorem exec_withMode {i : Instr} (hi : ∀ mode, i ≠ .crcInit mode) (c : Word) (s : State) :
    exec i (withMode c s) = outcomeWithMode c (exec i s) := by
  cases i with
  | unpack16 | unpack32 | unpack64 => exact (unpack_ignoresMode c _).exec (fun _ => rfl) s
  | pack16 | pack32 | pack64 => exact (pack_ignoresMode c _).exec (fun _ => rfl) s
  | append16 | append32 | append64 => exact (append_ignoresMode c _).exec (fun _ => rfl) s
  | hexenc | hexencsp | hexdump => exact (encodeRange_ignoresMode c _).exec (fun _ => rfl) s
  | hexdec => exact (hexDecode_ignoresMode c).exec (fun _ => rfl) s
  | hexchar => exact exec_hexchar_withMode c s
  | flip8 | flip16 | flip32 | flip64 | byte2u | bccInit | bccUpdb | bccFin | addInit | addUpdb | addFin | crcFin => rfl
  | bccUpd => exact bccUpd_runsOnRange.exec_withMode (fun _ _ => rfl) s
  | bccFinb => exact bccFinb_runsOnRange.exec_withMode (fun _ _ => rfl) s
  | addUpd => exact addUpd_runsOnRange.exec_withMode (fun _ _ => rfl) s
  | addFinb => exact addFinb_runsOnRange.exec_withMode (fun _ _ => rfl) s
  | crcUpd => exact crcUpd_runsOnRange_foldl.exec_withMode (fun _ _ => rfl) s
  | crcFinb => exact crcFinb_runsOnRange_foldl.exec_withMode (fun _ _ => rfl) s
  | crcUpdb => rw [exec_crcUpdb, exec_crcUpdb]; rfl
  | crcInit mode => exact absurd rfl (hi mode)

/-- Settles O53: the two engines agree, so the commands that read CRC_MODE ignore it too. -/
theorem crcModeIsUnobservable : Obligations.CrcModeIsUnobservable := fun _ s c hi _ _ => exec_withMode hi c s

/-! ## A 16-bit CRC register (R260.5) -/

/-- A step keeps the register within 16 bits: the shifted register and the ROM entry both are. -/
theorem crcByte_lt {crc : Word} (h : crc.toNat < 2 ^ 16) (b : Byte) : (crcByte crc b).toNat < 2 ^ 16 := by
  have hentry := (romEntry ((crc ^^^ b2u b).extractLsb' 0 8)).isLt
  rw [← romStep_eq_crcByte, romStep, BitVec.toNat_xor]
  apply Nat.xor_lt_two_pow
  · rw [BitVec.toNat_ushiftRight, Nat.shiftRight_eq_div_pow]; omega
  · rwa [BitVec.toNat_setWidth_of_le (by decide)]

theorem foldl_crcByte_lt {crc : Word} (h : crc.toNat < 2 ^ 16) (bs : List Byte) :
    (bs.foldl crcByte crc).toNat < 2 ^ 16 := by
  induction bs generalizing crc with
  | nil => exact h
  | cons b bs ih => exact ih (crcByte_lt h b)

/-- CRC_INIT leaves the accumulator with an error, and otherwise loads VAL[31:0]. -/
theorem crcAcc_of_crcInit {mode : BitVec 2} {s t : State} (h : exec (.crcInit mode) s = .next t) :
    t.crcAcc = s.crcAcc ∨ t.crcAcc = s.val.setWidth 32 := by
  rw [← extractLsb'_low_eq_setWidth]
  rw [exec, execCrcInit] at h
  split at h
  · cases h; exact .inl rfl
  · cases h; exact .inr rfl

/-- A next state keeps the accumulator within 16 bits, if it and a value that CRC_INIT loads are. -/
theorem crcAcc_lt_of_exec {i : Instr} {s t : State} (h : exec i s = .next t) (hacc : s.crcAcc.toNat < 2 ^ 16)
    (hval : ∀ mode, i = .crcInit mode → (s.val.setWidth 32).toNat < 2 ^ 16) : t.crcAcc.toNat < 2 ^ 16 := by
  cases i with
  | crcInit mode =>
    rcases crcAcc_of_crcInit h with heq | heq <;> rw [heq]
    · exact hacc
    · exact hval mode rfl
  | crcUpdb =>
    rw [exec_crcUpdb] at h
    cases h
    exact crcByte_lt hacc _
  | crcUpd =>
    rcases crcUpd_runsOnRange_foldl.next h with ⟨-, info, rfl⟩ | ⟨bs, -, rfl⟩
    · exact hacc
    · exact foldl_crcByte_lt hacc bs
  | _ =>
    obtain ⟨-, -, -, -, -, hkeeps⟩ := commandsWriteOnlyTheirState _ _ _ h
    rw [hkeeps (by decide)]
    exact hacc

/-- A finalize that reports no error leaves RES within 16 bits, if the accumulator is. -/
theorem res_lt_of_finalize {i : Instr} {s t : State} (h : exec i s = .next t) (hi : i = .crcFin ∨ i = .crcFinb)
    (herr : t.status.getLsbD 1 = false) (hacc : s.crcAcc.toNat < 2 ^ 16) : t.res.toNat < 2 ^ 16 := by
  rcases hi with rfl | rfl
  · cases h
    exact (BitVec.toNat_setWidth_of_le (by decide)).trans_lt hacc
  · rcases crcFinb_runsOnRange_foldl.next h with ⟨-, info, rfl⟩ | ⟨bs, -, rfl⟩
    · obtain ⟨-, hset, -⟩ := failed_status_fields 0x05#8 info s
      exact absurd (hset.symm.trans herr) (by decide)
    · exact (BitVec.toNat_setWidth_of_le (by decide)).trans_lt (foldl_crcByte_lt hacc bs)

/-- Settles O54: every command keeps the accumulator within 16 bits, and a finalize reads RES off it or off a fold from it. -/
theorem crcStaysSixteenBits : Obligations.CrcStaysSixteenBits := by
  intro i s t h hacc hval
  have hacc16 := Nat.lt_succ_of_le hacc
  refine ⟨Nat.le_of_lt_succ (crcAcc_lt_of_exec h hacc16 fun mode hm => ?_), fun herr hi =>
    Nat.le_of_lt_succ (res_lt_of_finalize h hi herr hacc16)⟩
  rw [BitVec.toNat_setWidth]
  exact Nat.lt_succ_of_le (hval mode hm)

end Sys2Proof.Machine

namespace Sys2Proof.Machine

/-! ## The end of a command with an error (R291) -/

/-- A command that raises nothing writes no bit of STATUS: only its completion does (R290). -/
theorem Writes.status_eq {i : Instr} {s s' : State} (hw : Writes i s s') : s'.status = s.status := by rw [hw.frame]

/-- The end of a started command that raises nothing leaves ERR clear, as its CMD write left it (R290). -/
theorem Writes.completed_err {i : Instr} {s s' : State} (hw : Writes i s s') (hb : s.status = 0x00000001#32) :
    (completed s').status.getLsbD 1 = false := by
  rw [completed_status, hw.status_eq, hb]; decide

/-- Settles O10: ERR is set only by an error report, which is made on the state before the command. -/
theorem errorLeavesNoPartialState : Obligations.ErrorLeavesNoPartialState := by
  intro w s t hb hrun herr
  rcases runCommand_next hrun with ⟨e, info, rfl⟩ | ⟨i, -, s', hw, rfl⟩
  · rfl
  · exact absurd herr (by rw [hw.completed_err hb]; decide)

/-! ## The step -/

/-- The command engine runs a word that decodes as its command (R290). -/
theorem runCommand_decoded {w : Word} {i : Instr} (hd : decode w = .ok i) (s : State) : runCommand w s = exec i s := by
  rw [runCommand, hd]

/-- A pending word whose time has come runs as the command it decodes to (R290). -/
theorem step_due_decoded {s : State} {w : Word} {i : Instr} (hp : s.pending = some ⟨w, 0⟩) (hd : decode w = .ok i) :
    step s = exec i s := by
  rw [step_due hp, runCommand_decoded hd]

/-- The word of `withFetchWord` is pending, with no host action left before its completion (log entry 5). -/
theorem withFetchWord_pending (s : State) (w : Word) : (s.withFetchWord 32 w.toNat).pending = some ⟨w, 0⟩ := by
  rw [State.withFetchWord, startCommand_pending, Nat.mod_eq_of_lt w.isLt, BitVec.ofNat_toNat, BitVec.setWidth_eq]

/-- Settles O4: the three cases of what is pending, and the first again for the word of `withFetchWord`. -/
theorem stepRunsDecodedCommand : Obligations.StepRunsDecodedCommand :=
  ⟨fun _ _ _ hp hd => step_due_decoded hp hd, fun _ _ _ hp => step_waiting hp, fun _ hp => step_idle hp,
    fun s w _ hd => step_due_decoded (withFetchWord_pending s w) hd⟩

end Sys2Proof.Machine

namespace Sys2Proof.Machine

/-! ## A pending command completes -/

/-- A host that has run its program to the end does nothing. -/
theorem hostStep_ended {s : State} (h : s.host.prog.length ≤ s.host.pc) : hostStep s = .next s := by
  rw [hostStep, List.getElem?_eq_none h]
  exact ite_self _

/-- A waiting command of a host at its program's end is one host action nearer to its time, and nothing else has changed
(R329, log entry 3). -/
theorem step_waiting_ended {s : State} {w : Word} {k : Nat} (hp : s.pending = some ⟨w, k + 1⟩)
    (hend : s.host.prog.length ≤ s.host.pc) : step s = .next { s with pending := some ⟨w, k⟩ } :=
  (step_waiting hp).trans (hostStep_ended (s := { s with pending := some ⟨w, k⟩ }) hend)

/-- Settles O6, by induction on the host actions left: each step takes one off, and the last runs the command. -/
theorem pendingCommandCompletes : Obligations.PendingCommandCompletes := by
  intro s w k i hp hend hd
  induction k generalizing s with
  | zero =>
    have hs : { s with pending := some ⟨w, 0⟩ } = s := by rw [← hp]
    rw [hs, core_run_one, step_due_decoded hp hd]
  | succ k ih =>
    rw [core_run_succ (step_waiting_ended hp hend)]
    exact ih { s with pending := some ⟨w, k⟩ } rfl hend

/-! ## CRC_MODE -/

/-- No command but CRC_INIT writes CRC_MODE (R33). -/
theorem Writes.crcMode_eq {i : Instr} {s s' : State} (hw : Writes i s s') (hi : ∀ mode, i ≠ .crcInit mode) :
    s'.crcMode = s.crcMode := by
  cases i with
  | unpack16 | unpack32 | unpack64 | flip8 | flip16 | flip32 | flip64 | byte2u | hexchar
  | bccFin | bccFinb | addFin | addFinb | crcFin | crcFinb
  | bccInit | bccUpdb | bccUpd | addInit | addUpdb | addUpd | crcUpdb | crcUpd => obtain ⟨v, rfl⟩ := hw; rfl
  | pack16 | pack32 | pack64 | append16 | append32 | append64 | hexdec | hexenc | hexencsp | hexdump =>
    obtain ⟨m, d, rfl, -⟩ := hw; rfl
  | crcInit mode => exact absurd rfl (hi mode)

/-- A word whose run changes CRC_MODE is one of CRC_INIT (R33): an error report changes nothing of it. -/
theorem eq_encode_crcInit_of_runCommand {w : Word} {s t : State} (h : runCommand w s = .next t)
    (hne : t.crcMode ≠ s.crcMode) : ∃ mode, w = encode (.crcInit mode) := by
  rcases runCommand_next h with ⟨e, info, rfl⟩ | ⟨i, hd, s', hw, rfl⟩
  · exact absurd rfl hne
  · by_contra hno
    exact hne (hw.crcMode_eq fun mode hi => hno ⟨mode, hi ▸ eq_encode_of_decode hd⟩)

/-- A host write of the idle device does not reach CRC_MODE, which is read-only (R21). -/
theorem writeTarget_crcMode (tg : Target) (data : Word) (s : State) : (writeTarget tg data s).crcMode = s.crcMode := by
  cases tg with
  | reg r => cases r <;> rfl
  | dcell i | tcell i | reserved => rfl

/-- A host action that changes CRC_MODE is RST (R320). -/
theorem reset_of_hostStep {s t : State} (h : hostStep s = .next t) (hne : t.crcMode ≠ s.crcMode) :
    s.host.prog[s.host.pc]? = some .reset := by
  rcases hostStep_next h with ⟨ag, d, rfl⟩ | ⟨hreset, -⟩ | ⟨-, ag, tg, data, -, rfl⟩
  · exact absurd rfl hne
  · exact hreset
  · exact absurd (writeTarget_crcMode tg data _) hne

/-- Settles O13: a step is the run of a pending word whose time has come, or an action of the host. -/
theorem onlyCrcInitChangesCrcMode : Obligations.OnlyCrcInitChangesCrcMode := by
  intro s t hs hne
  match hp : s.pending with
  | none => exact .inr (reset_of_hostStep (step_idle hp ▸ hs) hne)
  | some ⟨w, 0⟩ =>
    obtain ⟨mode, rfl⟩ := eq_encode_crcInit_of_runCommand (step_due hp ▸ hs) hne
    exact .inl ⟨mode, rfl⟩
  | some ⟨w, k + 1⟩ => exact .inr (reset_of_hostStep (s := { s with pending := some ⟨w, k⟩ }) (step_waiting hp ▸ hs) hne)

/-! ## The host's accesses of the busy device -/

/-- Settles O22: the admitted access has a target, and the busy device lets no write through to it. -/
theorem busyWriteIsHostHazard : Obligations.BusyWriteIsHostHazard := by
  intro s w o width hb ho ha
  obtain ⟨tg, hl⟩ := locateOffset_admitted.mpr ha
  rw [hostWrite, locate_window ho, hl]
  exact if_pos hb

/-- A host read within the window of the busy device that does not reach STATUS returns a draw (R323, log entry 4). -/
theorem hostRead_busy {s : State} {o width : Nat} {tg : Target} (hb : s.status.getLsbD 0 = true) (ho : o < 0x100000)
    (hl : locateOffset s.cfg o width = .ok tg) (htg : tg ≠ .reg .status) :
    hostRead (s.cfg.devBase + o) width s =
      .next (hostSaw (s.cfg.devBase + o) (Config.busyRead s.draws &&& BitVec.ofNat 32 (2 ^ width - 1))
        { s with draws := s.draws + 1 }) := by
  rw [hostRead, locate_window ho, hl]
  exact if_pos ⟨hb, htg⟩

/-- The register file is accessed in words (R62). -/
theorem AdmittedAccess.width_eq {o width : Nat} (h : AdmittedAccess o width) (ho : o < 0x1000) : width = 32 := by
  unfold AdmittedAccess at h; omega

/-- Settles O23: STATUS is read as it stands, and the target of any other admitted access is not STATUS. -/
theorem busyReadIsADraw : Obligations.BusyReadIsADraw := by
  intro s o width hb ho ha
  constructor
  · rintro rfl
    rw [ha.width_eq (by decide)]
    exact hostRead_status s
  · intro hne
    obtain ⟨tg, hl⟩ := locateOffset_admitted.mpr ha
    exact hostRead_busy hb ho hl (mt (locateOffset_status hl).mp hne)

/-! ## Reset -/

/-- Settles O8: the invariant asks of reset that the parameters are legal, and no more. -/
theorem invariantHoldsAfterReset : Obligations.InvariantHoldsAfterReset := fun _ hc => Inv.resetWith hc

/-- Settles O9, field by field; a buffer with no cell listed has every written bit false (R39). -/
theorem resetGivesResetValues : Obligations.ResetGivesResetValues := fun s =>
  ⟨applyReset s, rfl, applyReset_pending s, applyReset_cmd s, applyReset_status s, applyReset_off s, applyReset_len s,
    applyReset_val s, applyReset_res s, applyReset_dlen s, applyReset_tlen s, applyReset_bccAcc s, applyReset_addAcc s,
    applyReset_crcAcc s, applyReset_errInfo s, applyReset_crcMode s, fun _ => ⟨rfl, rfl⟩⟩

end Sys2Proof.Machine
